-- ==== Sys2Proof/Word.lean ====
section
/-! DEFINITION. The word types of the machine: one abbreviation per width the spec names. -/

namespace Sys2Proof

/-- A cog register, a lookup-RAM word, an instruction word, a NCO value: 32 bits (00_scope.md R5). -/
abbrev Word := BitVec 32

/-- A pixel lane, a DAC channel, a FIFO byte: 8 bits (00_scope.md R5, R15). -/
abbrev Byte := BitVec 8

/-- The number of a cog register: 9 bits (10_state.md R21, 30_encoding.md R77). -/
abbrev Reg := BitVec 9

/-- What a prefix word carries: bits 31:9 of a 32-bit immediate (30_encoding.md R83). -/
abbrev AugBits := BitVec 23

end Sys2Proof
end

