-- ==== Sys2Proof/Config.lean ====
section
/-! DEFINITION. What the spec leaves to an implementation (00_scope.md R6) and the free values: constants
without a body, of which nothing can be proved but that they are some value. -/

namespace Sys2Proof

/-- `HUB_ORDER`, 00_scope.md R6 and 20_memory.md R57: which byte of an RFWORD or RFLONG the FIFO delivers first. -/
inductive HubOrder where
  /-- The least significant byte first, the usual order. -/
  | little
  /-- The most significant byte first. -/
  | big
deriving DecidableEq, Repr

/-- The open parameters of 00_scope.md R6. The state carries them and nothing writes them, so that a statement about every
state holds for all their values (log 40). `CLK(i)` is the free value `Config.clocksBetween`. -/
structure Params where
  /-- `NREG`, the number of cog registers. -/
  nreg : Nat
  /-- The first special-function register address, 10_state.md R21 and D4. -/
  firstSpecial : Nat
  /-- `LUT_SIZE`, the number of lookup-RAM words. -/
  lutSize : Nat
  /-- `IMM_BITS`, the width of an immediate without a prefix word. It matters to the binary annex alone (D5, log 41). -/
  immBits : Nat
  /-- `GACC_BITS`, the width of the Goertzel accumulators. -/
  gaccBits : Nat
  /-- `NCOGS`, the number of cogs. The model has one of them (60_exceptions.md R228, D23), and no rule reads the number. -/
  ncogs : Nat
  /-- `HUB_ORDER`. -/
  hubOrder : HubOrder
deriving DecidableEq, Repr

namespace Config

/-- The usual values of 00_scope.md R6 and 10_state.md R21. PRESUMED (logs 7 to 10, 40, 41). -/
def usual : Params :=
  { nreg := 512, firstSpecial := 0x1F0, lutSize := 512, immBits := 9, gaccBits := 32, ncogs := 8, hubOrder := .little }

/-- Free value: streamer clocks that pass after the cog's `n`-th turn before its next one. It stands for `CLK(i)` of
00_scope.md R6 as well, whatever that is for the instruction of the turn.
The spec fixes no instruction duration (70_reset_and_hazards.md R255, D6). Log 16. -/
opaque clocksBetween : Nat → Nat

/-- Free value: the pin inputs `{INB, INA}` on the `n`-th system clock, an input of the environment
(10_state.md R20, R44). Log 18. -/
opaque pinInput : Nat → BitVec 64

/-- Free value: the byte `RD[i]` of the FIFO's read stream where the launch names none
(20_memory.md R55). Log 14. -/
opaque fifoByte : Nat → Byte

/-- Free value: what the Goertzel accumulator X holds at the `n`-th GETXACC
(42_streamer_instructions.md R150, U9), of which `GACC_BITS` bits count. Log 19. -/
opaque goertzelX : Nat → Nat

/-- Free value: what the Goertzel accumulator Y holds at the `n`-th GETXACC
(42_streamer_instructions.md R150, U9), of which `GACC_BITS` bits count. Log 19. -/
opaque goertzelY : Nat → Nat

/-- Free value: what channel `n` carries on a clock on which the colorspace converter overrides it
(41_dacs.md R125, U8). Log 20. -/
opaque colorspaceValue : Nat → Nat → Byte

end Config

end Sys2Proof
end

