-- ==== Sys2Proof/Machine/Bits.lean ====
section
/-! DEFINITION. Bit fields and byte order (00_scope.md R9, 20_memory.md R56, R57). -/

namespace Sys2Proof.Machine

/-- `byte(v, k)`: bits `8k+7:8k` (00_scope.md R9, R13). -/
def byteAt (v : Word) (k : Nat) : Byte := v.extractLsb' (8 * k) 8

/-- `pack(b3, b2, b1, b0)` (00_scope.md R13). -/
def pack (b3 b2 b1 b0 : Byte) : Word := b3 ++ b2 ++ b1 ++ b0

/-- The 32-bit value of up to four bytes, the least significant first (20_memory.md R57). -/
def leWord : List Byte → Word
  | [] => 0
  | b :: bs => (leWord bs <<< 8) ||| b.setWidth 32

/-- The `n` low bytes of a value, the least significant first (20_memory.md R57). -/
def leBytes : Nat → Word → List Byte
  | 0, _ => []
  | n + 1, v => v.setWidth 8 :: leBytes n (v >>> 8)

/-- The value of up to four bytes that the FIFO delivers, in `HUB_ORDER` (20_memory.md R57). -/
def orderedWord (order : HubOrder) (bs : List Byte) : Word :=
  match order with
  | .little => leWord bs
  | .big => leWord bs.reverse

/-- The `n` low bytes of a value as the FIFO takes them, in `HUB_ORDER` (20_memory.md R57). -/
def orderedBytes (order : HubOrder) (n : Nat) (v : Word) : List Byte :=
  match order with
  | .little => leBytes n v
  | .big => (leBytes n v).reverse

end Sys2Proof.Machine
end

