-- ==== Sys2Proof/Syntax.lean ====
section
/-! DEFINITION. The instructions: one constructor per row of spec/opcode_table.json, with the operand shapes of
30_encoding.md R71. -/

namespace Sys2Proof

/-- An operand written `D/#` or `S/#` (00_scope.md R14). At the level of the assembly text an immediate is
any 32-bit value (30_encoding.md R73); one instruction word carries nine bits of it (R83). -/
inductive Operand where
  | reg (n : Reg)
  | imm (v : Word)
deriving DecidableEq, Repr

/-- The instructions of the spec. A destination is a register by its type (30_encoding.md R72). -/
inductive Instr where
  /-- `ADDPIX D,S/#`, 40_pixel_mixer.md R103. -/
  | addpix (d : Reg) (o : Operand)
  /-- `MULPIX D,S/#`, 40_pixel_mixer.md R104. -/
  | mulpix (d : Reg) (o : Operand)
  /-- `BLNPIX D,S/#`, 40_pixel_mixer.md R105. -/
  | blnpix (d : Reg) (o : Operand)
  /-- `MIXPIX D,S/#`, 40_pixel_mixer.md R106. -/
  | mixpix (d : Reg) (o : Operand)
  /-- `SETPIV D/#`, 40_pixel_mixer.md R107. -/
  | setpiv (o : Operand)
  /-- `SETPIX D/#`, 40_pixel_mixer.md R108. -/
  | setpix (o : Operand)
  /-- `SETDACS D/#`, 41_dacs.md R122. -/
  | setdacs (o : Operand)
  /-- `SETXFRQ D/#`, 42_streamer_instructions.md R133. -/
  | setxfrq (o : Operand)
  /-- `SETQ D/#`, 42_streamer_instructions.md R151. -/
  | setq (o : Operand)
  /-- `XINIT D/#,S/#`, 42_streamer_instructions.md R136. -/
  | xinit (d : Operand) (o : Operand)
  /-- `XSTOP`, 42_streamer_instructions.md R137. -/
  | xstop
  /-- `XZERO D/#,S/#`, 42_streamer_instructions.md R140. -/
  | xzero (d : Operand) (o : Operand)
  /-- `XCONT D/#,S/#`, 42_streamer_instructions.md R141. -/
  | xcont (d : Operand) (o : Operand)
  /-- `GETXACC D`, 42_streamer_instructions.md R150. -/
  | getxacc (d : Reg)
  /-- The AUGS word before an instruction with a `##` S operand, 30_encoding.md R83. -/
  | augs (n : AugBits)
  /-- The AUGD word before an instruction with a `##` D operand, 30_encoding.md R83. -/
  | augd (n : AugBits)
deriving DecidableEq, Repr

end Sys2Proof
end

