-- ==== Sys2Proof/Machine/State.lean ====
section
/-! DEFINITION. The state of one cog and its streamer as plain data (10_state.md), the reasons a step can stop, and
the state at cog start. -/

namespace Sys2Proof.Machine

/-- Byte-addressed storage: listed cells, addresses strictly rising. The program text lies in one. An
unlisted address holds no byte (log 4). -/
abbrev Memory := List Host.Cell

/-- Word-addressed storage: listed words, addresses strictly rising, no zero listed. An unlisted address reads as
0 (logs 11 and 13). The cog registers and the lookup RAM lie in one each. -/
abbrev Bank := List (Nat × Word)

/-- The cog: program counter, registers, pin registers and what one instruction leaves for the next. -/
structure Cog where
  /-- Index of the current instruction word, 10_state.md R24 (log 3). -/
  pc : Nat
  /-- `x[0 .. NREG-1]`, 10_state.md R21. -/
  regs : Bank
  /-- `OUTA`, 10_state.md R23. -/
  outA : Word
  /-- `OUTB`, 10_state.md R23. -/
  outB : Word
  /-- `INA`, 10_state.md R23. -/
  inA : Word
  /-- `INB`, 10_state.md R23. -/
  inB : Word
  /-- `QPEND`, 10_state.md R39. -/
  qpend : Option Word
  /-- A prefix word stands between the SETQ of `qpend` and the current instruction, 30_encoding.md R83 (log 23). -/
  qSplit : Bool
  /-- `NEXTS`, 10_state.md R43. -/
  nexts : Option Word
  /-- The pending AUGS, 30_encoding.md R83, R84. -/
  augs : Option AugBits
  /-- The pending AUGD, 30_encoding.md R83, R84. -/
  augd : Option AugBits
deriving DecidableEq, Repr

/-- The pixel mixer's control state, 10_state.md R26, R27. -/
structure Mixer where
  v : Byte
  m : BitVec 6
deriving DecidableEq, Repr

/-- Four 8-bit channels, number 3 first: DAC3 to DAC0, or X3 to X0. -/
structure Channels where
  c3 : Byte
  c2 : Byte
  c1 : Byte
  c0 : Byte
deriving DecidableEq, Repr

/-- The DAC channels' state. -/
structure Dac where
  /-- `DACBG`, 10_state.md R28. -/
  bg : Channels
  /-- The colorspace converter overrides the channels: the premise `ColorspaceOff` of 41_dacs.md R125 fails. -/
  csOn : Bool
deriving DecidableEq, Repr

/-- Which instruction gave a command, 42_streamer_instructions.md R135. -/
inductive CmdKind where
  | init | zero | cont
deriving DecidableEq, Repr

/-- A streamer command, 42_streamer_instructions.md R135. -/
structure Command where
  kind : CmdKind
  d : Word
  s : Word
  q : Option Word
deriving DecidableEq, Repr

/-- The streamer, 10_state.md R30 to R37 and R41. -/
structure Streamer where
  xfrq : Word
  xphs : Word
  xcnt : BitVec 16
  xcmd : BitVec 16
  xsrc : Word
  xidx : Nat
  xdat : Word
  xbuf : Option Command
  /-- `XACX`, a number of `GACC_BITS` bits, 10_state.md R41. -/
  xacx : Nat
  /-- `XACY`, a number of `GACC_BITS` bits, 10_state.md R41. -/
  xacy : Nat
deriving DecidableEq, Repr

/-- The hub-RAM FIFO as the environment's two byte streams, 20_memory.md R55. -/
structure Fifo where
  /-- Premise `RdFastReady`. -/
  rdReady : Bool
  /-- The bytes of `RD` the launch names; the bytes after them are free values (log 14). -/
  rd : List Byte
  /-- How many bytes of `RD` have been consumed. -/
  rdPos : Nat
  /-- Premise `WrFastReady`. -/
  wrReady : Bool
  /-- `WR`, first byte first. -/
  wr : List Byte
deriving DecidableEq, Repr

/-- The program text, outside the other state (00_scope.md R7), and the registers that hold it (20_memory.md R66). -/
structure ProgramText where
  text : Memory
  regs : List Reg
deriving DecidableEq, Repr

/-- The MODEL's own bookkeeping, not the spec's: the interleaving and the free values' indices. -/
structure Sched where
  /-- System clocks that still pass before the cog's next turn (log 16). -/
  due : Nat
  /-- The cog's turns so far: index of `Config.clocksBetween` (log 16). -/
  turns : Nat
  /-- System clocks so far: index of `Config.pinInput` and `Config.colorspaceValue` (logs 18, 20). -/
  clocks : Nat
  /-- GETXACC draws so far: index of `Config.goertzelX` and `Config.goertzelY` (log 19). -/
  draws : Nat
deriving DecidableEq, Repr

/-- One cog, its three units and the environment they see. -/
structure State where
  cog : Cog
  mixer : Mixer
  dac : Dac
  str : Streamer
  lut : Bank
  fifo : Fifo
  prog : ProgramText
  sched : Sched
  /-- The open parameters of 00_scope.md R6; nothing writes them (log 40). -/
  par : Params
deriving DecidableEq, Repr

/-- The machine raises no exception (60_exceptions.md R220); the one fault belongs to the model's program text. -/
inductive Fault where
  /-- Raised by the fetch: the word at the program counter is listed only in part. SAFE: no program of the spec has
  such a text (log 5). -/
  | tornFetch
deriving DecidableEq, Repr

/-- The steps to which the spec gives no successor state (60_exceptions.md R221), by name. Each is SAFE: a claim
about such a step is not provable. -/
inductive Refusal where
  /-- Raised by `exec` for an instruction without a meaning. -/
  | notModelled (mnemonic : String)
  /-- Raised by any instruction with a D or S operand that names no general register: a special-function register
  (10_state.md R21, D4), or a number at or above `NREG` (20_memory.md R50). -/
  | notGeneralRegister
  /-- Raised by a pixel instruction or GETXACC whose D register holds program text, 20_memory.md R66. -/
  | writeToProgramText
  /-- Raised by the fetch of a word whose condition field is not `1111`, 30_encoding.md R78. -/
  | conditionNotModelled
  /-- Raised by the fetch of a word of no row of the opcode map, 30_encoding.md R84, R90. -/
  | notAnInstruction
  /-- Raised by the start of a command whose Mode and Misc match no row, 43_streamer_modes.md R176. -/
  | undefinedStreamerMode
  /-- Raised by the start of a command whose mode's explanation is lost, 43_streamer_modes.md R198. -/
  | streamerModeNotSpecified
  /-- Raised by the step that would present a lookup word at or above `LUT_SIZE`, 43_streamer_modes.md R190. -/
  | lookupOutOfRange
  /-- Raised by the start of an RDFAST mode without `RdFastReady`, 20_memory.md R55. -/
  | fifoNotReady
  /-- Raised by XINIT of a non-zero count over a buffered command, 42_streamer_instructions.md R136. -/
  | xinitOverBuffered
  /-- Raised by XINIT, XZERO, XCONT when a prefix word separates them from their SETQ, 30_encoding.md R83 and
  90_conflicts.md C9 (log 23). -/
  | setqSplit
deriving DecidableEq, Repr

/-- What an instruction, a clock or a step answers. -/
abbrev Result := Host.Outcome State Fault Refusal

/-- The state at cog start (70_reset_and_hazards.md R240 to R243, 10_state.md R44). XFRQ is the one value the source
gives; XCNT, XBUF, QPEND, NEXTS and `csOn` are the launch premises of D8; the rest is DESIGN CHOICE
(logs 11 to 14). -/
def State.reset : State where
  cog := { pc := 0, regs := [], outA := 0, outB := 0, inA := 0, inB := 0, qpend := none, qSplit := false,
           nexts := none, augs := none, augd := none }
  mixer := { v := 0, m := 0 }
  dac := { bg := { c3 := 0, c2 := 0, c1 := 0, c0 := 0 }, csOn := false }
  str := { xfrq := 0x80000000, xphs := 0, xcnt := 0, xcmd := 0, xsrc := 0, xidx := 0, xdat := 0, xbuf := none,
           xacx := 0, xacy := 0 }
  lut := []
  fifo := { rdReady := false, rd := [], rdPos := 0, wrReady := false, wr := [] }
  prog := { text := [], regs := [] }
  sched := { due := 0, turns := 0, clocks := 0, draws := 0 }
  par := Config.usual

end Sys2Proof.Machine
end

