-- ==== Sys2Proof/Machine/Ops.lean ====
section
/-! DEFINITION. The named operations over memories, registers and the FIFO, and the completion of an instruction. The
spec describes no exception, no trap entry and no return (60_exceptions.md R220, R224), so there is no such
operation here. -/

namespace Sys2Proof.Machine

/-! ### Sparse storage in its canonical form -/

/-- The entry at an address. -/
def sparseGet {α : Type} : List (Nat × α) → Nat → Option α
  | [], _ => none
  | (b, w) :: t, a => if a = b then some w else sparseGet t a

/-- Set the entry at an address, the addresses staying in rising order. -/
def sparsePut {α : Type} : List (Nat × α) → Nat → α → List (Nat × α)
  | [], a, v => [(a, v)]
  | (b, w) :: t, a, v =>
    if a < b then (a, v) :: (b, w) :: t
    else if a = b then (a, v) :: t
    else (b, w) :: sparsePut t a v

/-- Drop the entry at an address. -/
def sparseDrop {α : Type} : List (Nat × α) → Nat → List (Nat × α)
  | [], _ => []
  | (b, w) :: t, a => if a = b then t else (b, w) :: sparseDrop t a

/-- The addresses are strictly rising. -/
def sparseRising {α : Type} : List (Nat × α) → Bool
  | [] => true
  | (a, _) :: t => t.all (fun p => decide (a < p.1)) && sparseRising t

/-- The byte at an address; none where nothing is listed (log 4). -/
def Memory.read (m : Memory) (a : Nat) : Option Byte := sparseGet m a

/-- Write a byte. -/
def Memory.write (m : Memory) (a : Nat) (b : Byte) : Memory := sparsePut m a b

/-- Write bytes at rising addresses. -/
def Memory.writeAll (m : Memory) (a : Nat) : List Byte → Memory
  | [] => m
  | b :: bs => Memory.writeAll (Memory.write m a b) (a + 1) bs

/-- The canonical form of byte storage. An unlisted address reads as no byte, so no listed byte equals it. -/
def Memory.wf (m : Memory) : Bool := sparseRising m

/-- The word at an address; 0 where nothing is listed (logs 11 and 13). -/
def Bank.read (b : Bank) (a : Nat) : Word := (sparseGet b a).getD 0

/-- Write a word; writing what an unlisted address reads as removes the entry. -/
def Bank.write (b : Bank) (a : Nat) (v : Word) : Bank :=
  if v = 0 then sparseDrop b a else sparsePut b a v

/-- The canonical form of word storage of `size` words. -/
def Bank.wf (size : Nat) (b : Bank) : Bool :=
  sparseRising b && b.all (fun p => decide (p.1 < size) && decide (p.2 ≠ 0))

/-! ### Updates of one part of the state -/

/-- The state with another cog part. -/
def State.withCog (s : State) (c : Cog) : State := { s with cog := c }

/-- The state with another mixer part. -/
def State.withMixer (s : State) (m : Mixer) : State := { s with mixer := m }

/-- The state with another DAC part. -/
def State.withDac (s : State) (d : Dac) : State := { s with dac := d }

/-- The state with another streamer part. -/
def State.withStr (s : State) (x : Streamer) : State := { s with str := x }

/-- The state with another FIFO part. -/
def State.withFifo (s : State) (f : Fifo) : State := { s with fifo := f }

/-- The state with another scheduling part. -/
def State.withSched (s : State) (c : Sched) : State := { s with sched := c }

/-! ### Cog registers -/

/-- `x[n]`, 00_scope.md R13. -/
def Cog.readReg (c : Cog) (n : Reg) : Word := Bank.read c.regs n.toNat

/-- `x[n] <- v`, 00_scope.md R13. -/
def Cog.writeReg (c : Cog) (n : Reg) (v : Word) : Cog := { c with regs := Bank.write c.regs n.toNat v }

/-- The completion of an instruction: `QPEND` and `NEXTS` become absent, `pc <- pc + 1` (10_state.md R24, R39, R43),
and a pending prefix is used up by an immediate it applies to (30_encoding.md R83, log 25). -/
def Cog.retire (c : Cog) (immD immS : Bool) : Cog :=
  { c with
    pc := c.pc + 1
    qpend := none
    qSplit := false
    nexts := none
    augd := if immD then none else c.augd
    augs := if immS then none else c.augs }

/-! ### The hub-RAM FIFO, 20_memory.md R55, R57 -/

/-- `RD[i]`: a byte the launch names, else a free value (log 14). -/
def Fifo.byte (f : Fifo) (i : Nat) : Byte := (f.rd[i]?).getD (Config.fifoByte i)

/-- The next `n` bytes of `RD`. -/
def Fifo.bytes (f : Fifo) (i : Nat) : Nat → List Byte
  | 0 => []
  | n + 1 => f.byte i :: Fifo.bytes f (i + 1) n

/-- The value `FifoRead(8 n)` returns, zero-extended, when the next byte to be read is `RD[i]`. -/
def Fifo.valueAt (f : Fifo) (order : HubOrder) (i n : Nat) : Word := orderedWord order (Fifo.bytes f i n)

/-- The value the next `FifoRead(8 n)` returns. -/
def Fifo.value (f : Fifo) (order : HubOrder) (n : Nat) : Word := f.valueAt order f.rdPos n

/-- The FIFO after `FifoRead(8 n)`: `n` bytes are consumed. -/
def Fifo.consume (f : Fifo) (n : Nat) : Fifo := { f with rdPos := f.rdPos + n }

/-- `FifoWrite(8 n, v)`. Its users are the WRFAST modes, all of which 43_streamer_modes.md R198 refuses. -/
def Fifo.write (f : Fifo) (order : HubOrder) (n : Nat) (v : Word) : Fifo :=
  { f with wr := f.wr ++ orderedBytes order n v }

end Sys2Proof.Machine
end

