-- ==== Sys2Proof/Machine/Augment.lean ====
section
/-! DEFINITION. The prefix words AUGS and AUGD (30_encoding.md R83). -/

namespace Sys2Proof.Machine

/-- What a prefix word does to the cog beside its own bits: the next word is current, and a SETQ before it no longer stands
immediately before the instruction after it (30_encoding.md R83, 90_conflicts.md C9, log 23). `QPEND` and `NEXTS` stay for
that instruction, of which the prefix word is a part (log 24). -/
def Cog.passAugment (c : Cog) : Cog := { c with pc := c.pc + 1, qSplit := c.qpend.isSome }

/-- AUGS, 30_encoding.md R83: bits 31:9 for the next `#S` (log 25). -/
def execAugs (n : AugBits) (s : State) : Result :=
  .next (s.withCog { s.cog.passAugment with augs := some n })

/-- AUGD, 30_encoding.md R83: bits 31:9 for the next `#D` (log 25). -/
def execAugd (n : AugBits) (s : State) : Result :=
  .next (s.withCog { s.cog.passAugment with augd := some n })

end Sys2Proof.Machine
end

