-- ==== Sys2Proof/Machine/Operands.lean ====
section
/-! DEFINITION. Operand values: register, immediate, immediate under a prefix word, and the S value that GETXACC leaves
(00_scope.md R13, R14; 30_encoding.md R71 to R73, R83, R84; 42_streamer_instructions.md R150). -/

namespace Sys2Proof.Machine

/-- The number names no general register: it is one of the special-function addresses (10_state.md R21, D4), or at or above
`NREG` (20_memory.md R50). -/
def outsideGeneral (p : Params) (n : Reg) : Bool := decide (p.firstSpecial ≤ n.toNat) || decide (p.nreg ≤ n.toNat)

/-- The operand names no general register; the spec refuses the instruction (10_state.md R21), whether or not the register
is read (log 29). -/
def namesOutside (p : Params) : Operand → Bool
  | .reg n => outsideGeneral p n
  | .imm _ => false

/-- The operand is an immediate. -/
def isImmediate : Operand → Bool
  | .reg _ => false
  | .imm _ => true

/-- The value of an immediate: as written (30_encoding.md R73), or `{n[22:0], field[8:0]}` under a pending
prefix (R83, log 26). -/
def augmented (aug : Option AugBits) (v : Word) : Word :=
  match aug with
  | none => v
  | some n => n ++ v.extractLsb' 0 9

/-- `val(D)`. -/
def valueD (c : Cog) : Operand → Word
  | .reg n => c.readReg n
  | .imm v => augmented c.augd v

/-- `val(S)`, or the `NEXTS` value in its place (42_streamer_instructions.md R150). -/
def valueS (c : Cog) (o : Operand) : Word :=
  match c.nexts with
  | some y => y
  | none =>
    match o with
    | .reg n => c.readReg n
    | .imm v => augmented c.augs v

/-- What the instructions with one `D/#` operand share: the register refusal (10_state.md R21), the operand's
value read before anything changes, the completion, and the instruction's own effect with that value. -/
def withOperand (o : Operand) (s : State) (effect : Word → State → State) : Result :=
  if namesOutside s.par o then .refused .notGeneralRegister
  else .next (effect (valueD s.cog o) (s.withCog (s.cog.retire (isImmediate o) false)))

end Sys2Proof.Machine
end

