-- ==== Sys2Proof/Machine/Dacs.lean ====
section
/-! DEFINITION. SETDACS (41_dacs.md R122). -/

namespace Sys2Proof.Machine

/-- SETDACS, 41_dacs.md R122: byte `k` goes to `DACBG[k]`. -/
def execSetdacs (o : Operand) (s : State) : Result :=
  withOperand o s fun v t =>
    t.withDac { t.dac with bg := { c3 := byteAt v 3, c2 := byteAt v 2, c1 := byteAt v 1, c0 := byteAt v 0 } }

end Sys2Proof.Machine
end

