-- ==== Sys2Proof/Machine/Pixel.lean ====
section
/-! DEFINITION. The pixel mixer: ADDPIX, MULPIX, BLNPIX, MIXPIX, SETPIV, SETPIX (40_pixel_mixer.md). -/

namespace Sys2Proof.Machine

/-- The lane function, 40_pixel_mixer.md R101, in exact natural-number arithmetic (R109). -/
def pixLane (d s dmix smix : Byte) : Byte :=
  BitVec.ofNat 8 (min ((d.toNat * dmix.toNat + s.toNat * smix.toNat + 0xFF) >>> 8) 0xFF)

/-- Four lanes, each from its own bytes (40_pixel_mixer.md R100, R102). -/
def mixLanes (dmix smix : Byte → Byte → Byte) (dv sv : Word) : Word :=
  let lane := fun k =>
    pixLane (byteAt dv k) (byteAt sv k) (dmix (byteAt dv k) (byteAt sv k)) (smix (byteAt dv k) (byteAt sv k))
  pack (lane 3) (lane 2) (lane 1) (lane 0)

/-- The table of MIXPIX terms, 40_pixel_mixer.md R106. -/
def mixTerm (v : Byte) (sel : BitVec 3) (d s : Byte) : Byte :=
  match sel.toNat with
  | 0 => 0x00
  | 1 => 0xFF
  | 2 => v
  | 3 => v ^^^ 0xFF
  | 4 => s
  | 5 => s ^^^ 0xFF
  | 6 => d
  | _ => d ^^^ 0xFF

/-- What the four pixel operations share, 40_pixel_mixer.md R102, with the refusals of 10_state.md R21 and
20_memory.md R66. -/
def pixelOp (dmix smix : Byte → Byte → Byte) (d : Reg) (o : Operand) (s : State) : Result :=
  if outsideGeneral s.par d || namesOutside s.par o then .refused .notGeneralRegister
  else if s.prog.regs.contains d then .refused .writeToProgramText
  else
    .next (s.withCog
      ((s.cog.writeReg d (mixLanes dmix smix (s.cog.readReg d) (valueS s.cog o))).retire false (isImmediate o)))

/-- ADDPIX, 40_pixel_mixer.md R103. -/
def execAddpix (d : Reg) (o : Operand) (s : State) : Result :=
  pixelOp (fun _ _ => 0xFF) (fun _ _ => 0xFF) d o s

/-- MULPIX, 40_pixel_mixer.md R104. -/
def execMulpix (d : Reg) (o : Operand) (s : State) : Result :=
  pixelOp (fun _ sb => sb) (fun _ _ => 0x00) d o s

/-- BLNPIX, 40_pixel_mixer.md R105. -/
def execBlnpix (d : Reg) (o : Operand) (s : State) : Result :=
  pixelOp (fun _ _ => s.mixer.v ^^^ 0xFF) (fun _ _ => s.mixer.v) d o s

/-- MIXPIX, 40_pixel_mixer.md R106: `M[5:3]` selects DMIX, `M[2:0]` selects SMIX (10_state.md R27). -/
def execMixpix (d : Reg) (o : Operand) (s : State) : Result :=
  pixelOp (mixTerm s.mixer.v (s.mixer.m.extractLsb' 3 3)) (mixTerm s.mixer.v (s.mixer.m.extractLsb' 0 3)) d o s

/-- SETPIV, 40_pixel_mixer.md R107. -/
def execSetpiv (o : Operand) (s : State) : Result :=
  withOperand o s fun v t => t.withMixer { t.mixer with v := v.extractLsb' 0 8 }

/-- SETPIX, 40_pixel_mixer.md R108. -/
def execSetpix (o : Operand) (s : State) : Result :=
  withOperand o s fun v t => t.withMixer { t.mixer with m := v.extractLsb' 0 6 }

end Sys2Proof.Machine
end

