-- ==== Sys2Proof/Machine/Modes.lean ====
section
/-! DEFINITION. The streamer command word: the mode table, the layout of each mode's data, pin bases and the DAC routing
table (43_streamer_modes.md R170 to R190, R193). Bit `j` of XCMD is bit `j+16` of D. -/

namespace Sys2Proof.Machine

/-- A row of 43_streamer_modes.md R193: values of `w` bits cut into `n` channels of `m` bits, with or without the order
bit `%a`. -/
structure Shape where
  w : Nat
  n : Nat
  m : Nat
  hasA : Bool
deriving DecidableEq, Repr

/-- Pixel formats of the RGB rows, 43_streamer_modes.md R175. -/
inductive RgbFormat where
  | luma8 | rgbi8 | rgb8 | rgb16 | rgb24
deriving DecidableEq, Repr

/-- The ADC rows, 43_streamer_modes.md R178. -/
inductive AdcRow where
  | oneAdc | oneAdcPins | twoAdc | twoAdcPins | fourAdc
deriving DecidableEq, Repr

/-- A row of the mode table, or none of them. -/
inductive Mode where
  /-- Immediate ⇢ LUT ⇢ Pins/DACs, R171. -/
  | immLut (w : Nat)
  /-- Immediate ⇢ Pins/DACs, R172. -/
  | immPins (sh : Shape)
  /-- RDFAST ⇢ LUT ⇢ Pins/DACs, R173. -/
  | fifoLut (w : Nat) (hasA : Bool)
  /-- RDFAST ⇢ Pins/DACs, R174. -/
  | fifoPins (sh : Shape)
  /-- RDFAST ⇢ RGB ⇢ Pins/DACs, R175. -/
  | fifoRgb (f : RgbFormat)
  /-- Pins ⇢ DACs/WRFAST, R177. -/
  | pinsIn (sh : Shape)
  /-- ADCs/Pins ⇢ DACs/WRFAST, R178. -/
  | adcIn (r : AdcRow)
  /-- DDS/Goertzel, R179: SINC2 when D[23] is 1. -/
  | dds (sinc2 : Bool)
  /-- A combination with no row, R176. -/
  | undefined
deriving DecidableEq, Repr

/-! ### Fields of the command word, R170 -/

/-- D[31:28]. -/
def modeField (x : BitVec 16) : Nat := (x.extractLsb' 12 4).toNat

/-- `%dddd`, D[27:24]. -/
def ddddField (x : BitVec 16) : Nat := (x.extractLsb' 8 4).toNat

/-- `%e` or `%w`, D[23]. -/
def eBit (x : BitVec 16) : Bool := x.getLsbD 7

/-- `%ppp`, D[22:20]. -/
def pppField (x : BitVec 16) : Nat := (x.extractLsb' 4 3).toNat

/-- Misc, D[19:16]. -/
def miscField (x : BitVec 16) : Nat := (x.extractLsb' 0 4).toNat

/-- `%a`, D[16]. -/
def aBit (x : BitVec 16) : Bool := x.getLsbD 0

/-! ### The mode table -/

/-- The 2-bit rows: `pp0a`, `pp1a` (R193). -/
def shapeTwo (misc : Nat) : Shape :=
  if misc / 2 % 2 = 0 then ⟨2, 2, 1, true⟩ else ⟨2, 1, 2, true⟩

/-- The rows of Modes 0110, 1010, 1110 (R193). -/
def shapeFour (misc : Nat) : Shape :=
  match misc with
  | 6 => ⟨8, 4, 2, false⟩
  | 7 => ⟨8, 2, 4, false⟩
  | 14 => ⟨8, 1, 8, false⟩
  | 15 => ⟨16, 4, 4, false⟩
  | _ =>
    match misc / 2 % 4 with
    | 0 => ⟨4, 4, 1, true⟩
    | 1 => ⟨4, 2, 2, true⟩
    | _ => ⟨4, 1, 4, true⟩

/-- The 1-bit row `pppa` (R193). -/
def shapeOne : Shape := ⟨1, 1, 1, true⟩

/-- Misc `0000` of Modes 0111, 1011, 1111 (R193). -/
def shapeSixteen : Shape := ⟨16, 2, 8, false⟩

/-- Misc `0001` of Modes 0111, 1011, 1111 (R193). -/
def shapeThirtyTwo : Shape := ⟨32, 4, 8, false⟩

/-- Mode 0111 (R172, R173, R176). -/
def modeSeven (misc : Nat) : Mode :=
  match misc with
  | 0 => .immPins shapeSixteen
  | 1 => .immPins shapeThirtyTwo
  | 2 | 3 => .fifoLut 1 true
  | 4 | 5 => .fifoLut 2 true
  | 6 | 7 => .fifoLut 4 true
  | 8 => .fifoLut 8 false
  | _ => .undefined

/-- Mode 1011 (R174, R175, R176). -/
def modeEleven (misc : Nat) : Mode :=
  match misc with
  | 0 => .fifoPins shapeSixteen
  | 1 => .fifoPins shapeThirtyTwo
  | 2 => .fifoRgb .luma8
  | 3 => .fifoRgb .rgbi8
  | 4 => .fifoRgb .rgb8
  | 5 => .fifoRgb .rgb16
  | 6 => .fifoRgb .rgb24
  | _ => .undefined

/-- Mode 1111 (R176 to R179). -/
def modeFifteen (misc : Nat) (bit23 : Bool) : Mode :=
  match misc with
  | 0 => .pinsIn shapeSixteen
  | 1 => .pinsIn shapeThirtyTwo
  | 2 => .adcIn .oneAdc
  | 3 => .adcIn .oneAdcPins
  | 4 => .adcIn .twoAdc
  | 5 => .adcIn .twoAdcPins
  | 6 => .adcIn .fourAdc
  | 7 | 15 => .dds bit23
  | _ => .undefined

/-- The row of the mode table a command word selects (R171 to R179). -/
def modeOf (x : BitVec 16) : Mode :=
  match modeField x with
  | 0 => .immLut 1
  | 1 => .immLut 2
  | 2 => .immLut 4
  | 3 => .immLut 8
  | 4 => .immPins shapeOne
  | 5 => .immPins (shapeTwo (miscField x))
  | 6 => .immPins (shapeFour (miscField x))
  | 7 => modeSeven (miscField x)
  | 8 => .fifoPins shapeOne
  | 9 => .fifoPins (shapeTwo (miscField x))
  | 10 => .fifoPins (shapeFour (miscField x))
  | 11 => modeEleven (miscField x)
  | 12 => .pinsIn shapeOne
  | 13 => .pinsIn (shapeTwo (miscField x))
  | 14 => .pinsIn (shapeFour (miscField x))
  | _ => modeFifteen (miscField x) (eBit x)

/-! ### Data layout, R188, R193 -/

/-- How a mode takes its data: values of `w` bits from chunks of `chunk` bits, the chunks from the FIFO or from S, with
or without `%a`. -/
structure Layout where
  w : Nat
  chunk : Nat
  fifo : Bool
  hasA : Bool
deriving DecidableEq, Repr

/-- `n = C / w`, the values in a chunk. -/
def Layout.values (l : Layout) : Nat := l.chunk / l.w

/-- The chunk of a RDFAST ⇢ Pins/DACs row: RFBYTE up to 8 bits, RFWORD for 16, RFLONG for 32 (R188). -/
def fifoChunk (w : Nat) : Nat := if w ≤ 8 then 8 else w

/-- The layout of a mode the spec explains; none for the rows of R198 and the combinations of R176. -/
def Mode.layout : Mode → Option Layout
  | .immLut w => some ⟨w, 32, false, false⟩
  | .immPins sh => some ⟨sh.w, 32, false, sh.hasA⟩
  | .fifoLut w hasA => some ⟨w, 32, true, hasA⟩
  | .fifoPins sh => some ⟨sh.w, fifoChunk sh.w, true, sh.hasA⟩
  | .fifoRgb .luma8 => some ⟨8, 8, true, false⟩
  | .fifoRgb .rgbi8 => none
  | .fifoRgb .rgb8 => none
  | .fifoRgb .rgb16 => none
  | .fifoRgb .rgb24 => none
  | .pinsIn _ => none
  | .adcIn _ => none
  | .dds _ => none
  | .undefined => none

/-- The name under which a mode without a layout is refused (R176, R198). -/
def Mode.refusal : Mode → Refusal
  | .undefined => .undefinedStreamerMode
  | _ => .streamerModeNotSpecified

/-- The lookup-RAM base field `bbbb` of a LUT mode: D[19:16] or S[3:0] (R190); none for other modes. -/
def lutBase (m : Mode) (xcmd : BitVec 16) (xsrc : Word) : Option Nat :=
  match m with
  | .immLut _ => some (miscField xcmd)
  | .fifoLut _ _ => some (xsrc.extractLsb' 0 4).toNat
  | _ => none

/-- `LutAddr(bbbb, v)`, R190. -/
def lutAddr (bbbb v : Nat) : Nat := 32 * bbbb + v

/-- `Field(data, w, a, k)`, the `k`-th `w`-bit value of a chunk, R186. -/
def dataField (data : Word) (w : Nat) (a : Bool) (k : Nat) : Word :=
  let off :=
    if 8 ≤ w ∨ a = false then k * w
    else 8 * (k * w / 8) + (8 / w - 1 - k * w % 8 / w) * w
  BitVec.ofNat 32 ((data.toNat >>> off) % 2 ^ w)

/-! ### Channel patterns, R181 -/

/-- `c` copies of an `m`-bit value, one above the other. -/
def copies (m f : Nat) : Nat → Nat
  | 0 => 0
  | c + 1 => copies m f c * 2 ^ m + f

/-- `Rep(f, m)`: the 8-bit value of `8/m` copies of an `m`-bit value. -/
def rep (f m : Nat) : Byte := BitVec.ofNat 8 (copies m f (8 / m))

/-- One channel of `Chan(n, m, v)`. -/
def chanByte (n m : Nat) (v : Word) (j : Nat) : Byte :=
  if j < n then rep ((v.toNat >>> (m * j)) % 2 ^ m) m else 0

/-- `Chan(n, m, v)`. -/
def chan (n m : Nat) (v : Word) : Channels :=
  ⟨chanByte n m v 3, chanByte n m v 2, chanByte n m v 1, chanByte n m v 0⟩

/-- The channels of a 32-bit output word `{X3, X2, X1, X0}`. -/
def channelsOf (w : Word) : Channels := ⟨byteAt w 3, byteAt w 2, byteAt w 1, byteAt w 0⟩

/-- The 32-bit word `{X3, X2, X1, X0}` of four channels. -/
def Channels.word (c : Channels) : Word := pack c.c3 c.c2 c.c1 c.c0

/-- Channel `n` of four. -/
def Channels.get (c : Channels) (n : Fin 4) : Byte :=
  match n with
  | 0 => c.c0
  | 1 => c.c1
  | 2 => c.c2
  | 3 => c.c3

/-- LUMA8, R197. Rows `%100` to `%111` are PRESUMED (log 22). -/
def luma8 (colour : Nat) (p : Byte) : Channels :=
  match colour with
  | 0 => ⟨p, p >>> 1, 0, 0⟩
  | 1 => ⟨0, 0, p, 0⟩
  | 2 => ⟨0, p, 0, 0⟩
  | 3 => ⟨0, p, p, 0⟩
  | 4 => ⟨p, 0, 0, 0⟩
  | 5 => ⟨p, 0, p, 0⟩
  | 6 => ⟨p, p, 0, 0⟩
  | _ => ⟨p, p, p, 0⟩

/-! ### Pins, R182 to R185 -/

/-- The base pin of a transfer of shape width `w`, R185. -/
def shapeBase (w : Nat) (x : BitVec 16) : Nat :=
  match w with
  | 1 => (x.extractLsb' 1 6).toNat
  | 2 => 2 * (x.extractLsb' 2 5).toNat
  | 4 => 4 * (x.extractLsb' 3 4).toNat
  | _ => 8 * pppField x

/-- The base pin of a mode, R184, R185. -/
def pinBase (x : BitVec 16) : Nat :=
  match modeOf x with
  | .immPins sh | .fifoPins sh | .pinsIn sh => shapeBase sh.w x
  | .dds _ => 4 * (x.extractLsb' 3 4).toNat
  | _ => 8 * pppField x

/-- A value on the pins from `base` up, pin numbers modulo 64 (R182, R184): bit `i` goes to pin `(base + i) mod 64`. -/
def placePins (base : Nat) (pv : Word) : BitVec 64 := (pv.setWidth 64).rotateLeft base

/-- The sample of an `n`-pin input mode, R183: bit `i` is input pin `(base + i) mod 64`. -/
def samplePins (base n : Nat) (pins : BitVec 64) : Word :=
  BitVec.ofNat 32 ((pins.rotateRight base).toNat % 2 ^ n)

/-! ### DAC routing, R180 -/

/-- An entry of the routing table: no override, `Xk` or `!Xk`. -/
inductive RouteEntry where
  | keep
  | x (k : Fin 4)
  | notX (k : Fin 4)
deriving DecidableEq, Repr

/-- A row of the routing table, DAC channel 3 first. -/
structure RouteRow where
  r3 : RouteEntry
  r2 : RouteEntry
  r1 : RouteEntry
  r0 : RouteEntry
deriving DecidableEq, Repr

/-- The row of `%dddd`, R180. -/
def routeRow (dddd : Nat) : RouteRow :=
  match dddd with
  | 0 => ⟨.keep, .keep, .keep, .keep⟩
  | 1 => ⟨.x 0, .x 0, .x 0, .x 0⟩
  | 2 => ⟨.keep, .keep, .x 0, .x 0⟩
  | 3 => ⟨.x 0, .x 0, .keep, .keep⟩
  | 4 => ⟨.keep, .keep, .keep, .x 0⟩
  | 5 => ⟨.keep, .keep, .x 0, .keep⟩
  | 6 => ⟨.keep, .x 0, .keep, .keep⟩
  | 7 => ⟨.x 0, .keep, .keep, .keep⟩
  | 8 => ⟨.notX 0, .x 0, .notX 0, .x 0⟩
  | 9 => ⟨.keep, .keep, .notX 0, .x 0⟩
  | 10 => ⟨.notX 0, .x 0, .keep, .keep⟩
  | 11 => ⟨.x 1, .x 0, .x 1, .x 0⟩
  | 12 => ⟨.keep, .keep, .x 1, .x 0⟩
  | 13 => ⟨.x 1, .x 0, .keep, .keep⟩
  | 14 => ⟨.notX 1, .x 1, .notX 0, .x 0⟩
  | _ => ⟨.x 3, .x 2, .x 1, .x 0⟩

/-- `Route(dddd, n)`, R180. -/
def route (dddd : Nat) (n : Fin 4) : RouteEntry :=
  match n with
  | 0 => (routeRow dddd).r0
  | 1 => (routeRow dddd).r1
  | 2 => (routeRow dddd).r2
  | 3 => (routeRow dddd).r3

/-- What an entry puts on a channel: the background, or a streamer channel, possibly complemented (R180). -/
def RouteEntry.apply (e : RouteEntry) (out : Channels) (bg : Byte) : Byte :=
  match e with
  | .keep => bg
  | .x k => out.get k
  | .notX k => out.get k ^^^ 0xFF

end Sys2Proof.Machine
end

