-- ==== Sys2Proof/Machine/Streamer.lean ====
section
/-! DEFINITION. The streamer as an agent: NCO, start of a command, data sequencing and the clock step
(42_streamer_instructions.md R131, R132, R138, R145 to R149; 43_streamer_modes.md R188 to R190). -/

namespace Sys2Proof.Machine

/-- The NCO step, 42_streamer_instructions.md R131, modulo `2^32` (log 21). -/
def ncoStep (freq phase : Word) : Word := (phase &&& 0x7FFFFFFF) + freq

/-- A rollover clock: bit 31 of the new phase is 1, 42_streamer_instructions.md R132. -/
def rollsOver (phase : Word) : Bool := phase.getLsbD 31

/-- The layout of the running command's mode. -/
def Streamer.layout (x : Streamer) : Option Layout := (modeOf x.xcmd).layout

/-- `Item()`, 43_streamer_modes.md R188, R189. -/
def itemIndex (l : Layout) (xidx : Nat) : Nat :=
  if l.fifo then xidx % l.values else min xidx (l.values - 1)

/-- `Value()` of the running command, 43_streamer_modes.md R188; 0 when its mode has no layout (log 32). -/
def Streamer.value (x : Streamer) : Word :=
  match x.layout with
  | some l => dataField x.xdat l.w (l.hasA && aBit x.xcmd) (itemIndex l x.xidx)
  | none => 0

/-- The lookup-RAM address the running command is on; none when its mode reads no lookup RAM. -/
def Streamer.lutTarget (x : Streamer) : Option Nat :=
  (lutBase (modeOf x.xcmd) x.xcmd x.xsrc).map fun b => lutAddr b x.value.toNat

/-- The current item can be presented: its lookup address, if any, exists. The step that would present a word at or above
`LUT_SIZE` is refused (43_streamer_modes.md R190, log 33). -/
def present (s : State) : Result :=
  match s.str.lutTarget with
  | some a => if a < s.par.lutSize then .next s else .refused .lookupOutOfRange
  | none => .next s

/-- `XDAT <- FifoRead(C)`, refused without `RdFastReady` (20_memory.md R55, 43_streamer_modes.md R187, R188). -/
def loadChunk (chunk : Nat) (s : State) : Result :=
  if s.fifo.rdReady then
    present ((s.withStr { s.str with xdat := s.fifo.value s.par.hubOrder (chunk / 8) }).withFifo (s.fifo.consume (chunk / 8)))
  else .refused .fifoNotReady

/-- `LoadFirst()`, 43_streamer_modes.md R188; the modes without a meaning are refused (R176, R198). -/
def loadFirst (s : State) : Result :=
  match s.str.layout with
  | none => .refused (modeOf s.str.xcmd).refusal
  | some l =>
    if l.fifo then loadChunk l.chunk s
    else present (s.withStr { s.str with xdat := s.str.xsrc })

/-- The streamer's registers when a command starts, 42_streamer_instructions.md R138. -/
def Streamer.begin (x : Streamer) (c : Command) : Streamer :=
  { x with
    xfrq := c.q.getD x.xfrq
    xphs := if c.kind = .cont then x.xphs else 0
    xcmd := c.d.extractLsb' 16 16
    xcnt := c.d.extractLsb' 0 16
    xsrc := c.s
    xidx := 0 }

/-- `Start(c)`, 42_streamer_instructions.md R138. A command of count 0 only stops the streamer. -/
def start (c : Command) (s : State) : Result :=
  let t := s.withStr (s.str.begin c)
  if t.str.xcnt = 0 then .next t else loadFirst t

/-- `Advance()`: `XIDX <- XIDX + 1; NextItem()`, 42_streamer_instructions.md R145 and 43_streamer_modes.md R188. -/
def advance (s : State) : Result :=
  let t := s.withStr { s.str with xidx := s.str.xidx + 1 }
  match t.str.layout with
  | none => .refused (modeOf t.str.xcmd).refusal
  | some l =>
    if l.fifo ∧ t.str.xidx % l.values = 0 then loadChunk l.chunk t
    else present t

/-- A buffered command starts and leaves the buffer; without one `other` happens (42_streamer_instructions.md R145). -/
def startBuffered (s : State) (other : Result) : Result :=
  match s.str.xbuf with
  | some c => start c (s.withStr { s.str with xbuf := none })
  | none => other

/-- What a rollover clock does, 42_streamer_instructions.md R145 to R148. -/
def onRollover (s : State) : Result :=
  if s.str.xcnt = 0xFFFF then startBuffered s (advance s)
  else if s.str.xcnt = 1 then startBuffered s (.next (s.withStr { s.str with xcnt := 0 }))
  else advance (s.withStr { s.str with xcnt := s.str.xcnt - 1 })

/-- The running command is of a DDS/Goertzel row, which rollovers do not clock (42_streamer_instructions.md R132, R152). -/
def Streamer.runsDds (x : Streamer) : Bool :=
  match modeOf x.xcmd with
  | .dds _ => true
  | _ => false

/-- `StreamerClock`, 42_streamer_instructions.md R145. -/
def streamerClock (s : State) : Result :=
  if s.str.xcnt = 0 then .next s
  else if s.str.runsDds then .refused .streamerModeNotSpecified
  else
    let t := s.withStr { s.str with xphs := ncoStep s.str.xfrq s.str.xphs }
    if rollsOver t.str.xphs then onRollover t else .next t

/-- The environment's part of a system clock: the pin inputs of this clock (10_state.md R20, R44; log 18). -/
def samplePinInputs (s : State) : State :=
  { s with
    cog := { s.cog with
      inA := (Config.pinInput s.sched.clocks).extractLsb' 0 32
      inB := (Config.pinInput s.sched.clocks).extractLsb' 32 32 }
    sched := { s.sched with clocks := s.sched.clocks + 1 } }

/-- One system clock: the pin inputs, then the streamer's clock step. -/
def systemClock (s : State) : Result := streamerClock (samplePinInputs s)

end Sys2Proof.Machine
end

