-- ==== Sys2Proof/Machine/StreamerInstr.lean ====
section
/-! DEFINITION. The streamer's instructions: SETXFRQ, SETQ, XINIT, XSTOP, XZERO, XCONT, GETXACC
(42_streamer_instructions.md). -/

namespace Sys2Proof.Machine

/-- SETXFRQ, 42_streamer_instructions.md R133. -/
def execSetxfrq (o : Operand) (s : State) : Result :=
  withOperand o s fun v t => t.withStr { t.str with xfrq := v }

/-- SETQ, 42_streamer_instructions.md R151. -/
def execSetq (o : Operand) (s : State) : Result :=
  withOperand o s fun v t => t.withCog { t.cog with qpend := some v }

/-- The instruction's completion applied to whatever state an effect answers. -/
def thenRetire (r : Result) (immD immS : Bool) : Result :=
  match r with
  | .next t => .next (t.withCog (t.cog.retire immD immS))
  | .fault f => .fault f
  | .refused e => .refused e

/-- The command of given operand values, 42_streamer_instructions.md R134, R135. -/
def commandOf (kind : CmdKind) (d v : Word) (s : State) : Command :=
  { kind := kind, d := d, s := v, q := s.cog.qpend }

/-- A command's rollover count, D[15:0]. -/
def Command.count (c : Command) : BitVec 16 := c.d.extractLsb' 0 16

/-- XINIT with its command: immediate start; a buffered command is dropped by count 0 and otherwise the case is refused
(42_streamer_instructions.md R136, 90_conflicts.md C8). -/
def initCommand (c : Command) (s : State) : Result :=
  if s.str.xbuf.isSome then
    if c.count = 0 then start c (s.withStr { s.str with xbuf := none })
    else .refused .xinitOverBuffered
  else start c s

/-- Held: a command runs and another one waits (42_streamer_instructions.md R143). -/
def blocked (s : State) : Bool := decide (s.str.xcnt ≠ 0) && s.str.xbuf.isSome

/-- XINIT's refusals before its effect: an operand that names no general register (10_state.md R21), or a prefix word
between it and its SETQ (30_encoding.md R83, 90_conflicts.md C9). The same for XZERO and XCONT. -/
def commandRefusal (d o : Operand) (s : State) : Option Refusal :=
  if namesOutside s.par d || namesOutside s.par o then some .notGeneralRegister
  else if s.cog.qpend.isSome && s.cog.qSplit then some .setqSplit
  else none

/-- XINIT with its operands. -/
def initWith (d o : Operand) (s : State) : Result :=
  match commandRefusal d o s with
  | some r => .refused r
  | none =>
    thenRetire (initCommand (commandOf .init (valueD s.cog d) (valueS s.cog o) s) s) (isImmediate d) (isImmediate o)

/-- XINIT, 42_streamer_instructions.md R136. -/
def execXinit (d o : Operand) (s : State) : Result := initWith d o s

/-- XSTOP, 42_streamer_instructions.md R137: XINIT with D = 0 and S = 0. It has no S operand that could take the NEXTS
value (R150, log 28). Under a pending AUGD or AUGS its word is the last word of an `XINIT ##` (30_encoding.md R83, R84,
log 27). -/
def execXstop (s : State) : Result :=
  if s.cog.augd.isSome || s.cog.augs.isSome then initWith (.imm 0) (.imm 0) s
  else
    match commandRefusal (.imm 0) (.imm 0) s with
    | some r => .refused r
    | none => thenRetire (initCommand (commandOf .init 0 0 s) s) true true

/-- What XZERO and XCONT share, 42_streamer_instructions.md R139, R142, R143. A held instruction changes nothing and stays
the current one (log 17). -/
def bufferCommand (kind : CmdKind) (d o : Operand) (s : State) : Result :=
  match commandRefusal d o s with
  | some r => .refused r
  | none =>
    let c := commandOf kind (valueD s.cog d) (valueS s.cog o) s
    if s.str.xcnt = 0 then thenRetire (start c s) (isImmediate d) (isImmediate o)
    else if s.str.xbuf.isSome then .next s
    else
      .next ((s.withStr { s.str with xbuf := some c }).withCog (s.cog.retire (isImmediate d) (isImmediate o)))

/-- XZERO, 42_streamer_instructions.md R140. -/
def execXzero (d o : Operand) (s : State) : Result := bufferCommand .zero d o s

/-- XCONT, 42_streamer_instructions.md R141. -/
def execXcont (d o : Operand) (s : State) : Result := bufferCommand .cont d o s

/-- The accumulators take the values of `GACC_BITS` bits that the lost Goertzel passage would give them: free values (U9,
log 19). -/
def drawGoertzel (s : State) : State :=
  { s with
    str := { s.str with
      xacx := Config.goertzelX s.sched.draws % 2 ^ s.par.gaccBits
      xacy := Config.goertzelY s.sched.draws % 2 ^ s.par.gaccBits }
    sched := { s.sched with draws := s.sched.draws + 1 } }

/-- GETXACC on accumulators that hold their values: X to D, Y to the next S, each widened or truncated to 32 bits, both
cleared (42_streamer_instructions.md R150). -/
def readAccumulators (d : Reg) (s : State) : State :=
  (s.withCog { (s.cog.writeReg d (BitVec.ofNat 32 s.str.xacx)).retire false false with
    nexts := some (BitVec.ofNat 32 s.str.xacy) }).withStr { s.str with xacx := 0, xacy := 0 }

/-- GETXACC, 42_streamer_instructions.md R150, with the refusals of 10_state.md R21 and 20_memory.md R66. -/
def execGetxacc (d : Reg) (s : State) : Result :=
  if outsideGeneral s.par d then .refused .notGeneralRegister
  else if s.prog.regs.contains d then .refused .writeToProgramText
  else .next (readAccumulators d (drawGoertzel s))

end Sys2Proof.Machine
end

