-- ==== Sys2Proof/Machine/Dispatch.lean ====
section
/-! DEFINITION. One arm per instruction. -/

namespace Sys2Proof.Machine

def exec (i : Instr) (s : State) : Host.Outcome State Fault Refusal :=
  match i with
  | .addpix d o => Sys2Proof.Machine.execAddpix d o s
  | .mulpix d o => Sys2Proof.Machine.execMulpix d o s
  | .blnpix d o => Sys2Proof.Machine.execBlnpix d o s
  | .mixpix d o => Sys2Proof.Machine.execMixpix d o s
  | .setpiv o => Sys2Proof.Machine.execSetpiv o s
  | .setpix o => Sys2Proof.Machine.execSetpix o s
  | .setdacs o => Sys2Proof.Machine.execSetdacs o s
  | .setxfrq o => Sys2Proof.Machine.execSetxfrq o s
  | .setq o => Sys2Proof.Machine.execSetq o s
  | .xinit d o => Sys2Proof.Machine.execXinit d o s
  | .xstop => Sys2Proof.Machine.execXstop s
  | .xzero d o => Sys2Proof.Machine.execXzero d o s
  | .xcont d o => Sys2Proof.Machine.execXcont d o s
  | .getxacc d => Sys2Proof.Machine.execGetxacc d s
  | .augs n => Sys2Proof.Machine.execAugs n s
  | .augd n => Sys2Proof.Machine.execAugd n s

end Sys2Proof.Machine
end

