-- ==== Sys2Proof/WellFormed.lean ====
section
/-! DEFINITION. Which terms of `Instr` are the instruction of one 32-bit word. Register numbers and the
register-only destinations are right by their types. -/

namespace Sys2Proof

/-- The operand fits its field of an instruction word: an immediate has at most `IMM_BITS` bits (00_scope.md R6,
30_encoding.md R77, R83). -/
def Operand.fits (immBits : Nat) : Operand → Bool
  | .reg _ => true
  | .imm v => decide (v.toNat < 2 ^ immBits)

/-- The instruction is the reading of one word whose immediates have `IMM_BITS` bits: its immediates fit, and the word
`XINIT #0,#0` is spelled `XSTOP` (30_encoding.md R84 tests XSTOP before XINIT). -/
def Instr.fitsWord (immBits : Nat) : Instr → Bool
  | .addpix _ o => o.fits immBits
  | .mulpix _ o => o.fits immBits
  | .blnpix _ o => o.fits immBits
  | .mixpix _ o => o.fits immBits
  | .setpiv o => o.fits immBits
  | .setpix o => o.fits immBits
  | .setdacs o => o.fits immBits
  | .setxfrq o => o.fits immBits
  | .setq o => o.fits immBits
  | .xinit d o => d.fits immBits && o.fits immBits && !(decide (d = .imm 0) && decide (o = .imm 0))
  | .xstop => true
  | .xzero d o => d.fits immBits && o.fits immBits
  | .xcont d o => d.fits immBits && o.fits immBits
  | .getxacc _ => true
  | .augs _ => true
  | .augd _ => true

/-- The instruction is the reading of one word of the binary annex, whose immediates have the usual `IMM_BITS` = 9 bits
(30_encoding.md R83). PRESUMED (log 41). -/
def Instr.wellFormed (i : Instr) : Bool := i.fitsWord Config.usual.immBits

end Sys2Proof
end

