-- ==== Sys2Proof/Decode.lean ====
section
/-! DEFINITION. The decoder, steps (3) to (5) of 30_encoding.md R84 over the opcode map of R82, and the encoder,
from the formats of R77 to R81 and R83. PRESUMED (log 1): the spec takes every bit pattern from general
knowledge. The condition field is no part of the opcode map (R82); the fetch admits only `1111`
(Machine/Flags.lean, Machine/Fetch.lean, log 2). -/

namespace Sys2Proof

/-- The rows of the opcode map, 30_encoding.md R82. -/
inductive Op where
  | addpix | mulpix | blnpix | mixpix
  | xstop | xinit | xzero | xcont
  | setdacs | setxfrq | getxacc | setq | setpiv | setpix
  | augs | augd
deriving DecidableEq, Repr

/-- The map in the order in which it is searched: XSTOP before XINIT (30_encoding.md R84). -/
def Op.all : List Op :=
  [.addpix, .mulpix, .blnpix, .mixpix, .xstop, .xinit, .xzero, .xcont,
   .setdacs, .setxfrq, .getxacc, .setq, .setpiv, .setpix, .augs, .augd]

/-- The `match` column of 30_encoding.md R82. -/
def Op.pattern : Op → Word
  | .addpix => 0x0A400000
  | .mulpix => 0x0A480000
  | .blnpix => 0x0A500000
  | .mixpix => 0x0A580000
  | .xstop => 0x0CAC0000
  | .xinit => 0x0CA00000
  | .xzero => 0x0CB00000
  | .xcont => 0x0CC00000
  | .setdacs => 0x0D60001C
  | .setxfrq => 0x0D60001D
  | .getxacc => 0x0D60001E
  | .setq => 0x0D600028
  | .setpiv => 0x0D60003D
  | .setpix => 0x0D60003E
  | .augs => 0x0F000000
  | .augd => 0x0F800000

/-- The `mask` column of 30_encoding.md R82. -/
def Op.mask : Op → Word
  | .addpix | .mulpix | .blnpix | .mixpix => 0x0FF80000
  | .xstop => 0x0FFFFFFF
  | .xinit | .xzero | .xcont => 0x0FF00000
  | .setdacs | .setxfrq | .setq | .setpiv | .setpix => 0x0FF801FF
  | .getxacc => 0x0FFC01FF
  | .augs | .augd => 0x0F800000

/-- `(w & mask) = match` (30_encoding.md R82). -/
def Op.matchesWord (w : Word) (op : Op) : Bool := w &&& op.mask == op.pattern

/-- The D field, bits 17:9 (30_encoding.md R77). -/
def fieldD (w : Word) : BitVec 9 := w.extractLsb' 9 9

/-- The S field, bits 8:0 (30_encoding.md R77). -/
def fieldS (w : Word) : BitVec 9 := w.extractLsb' 0 9

/-- The 23 bits of a prefix word (30_encoding.md R83). -/
def fieldN (w : Word) : AugBits := w.extractLsb' 0 23

/-- `Reg n` when the selector bit is 0, `Imm n` zero-extended when it is 1 (30_encoding.md R83, R84). -/
def operandOf (selector : Bool) (field : BitVec 9) : Operand :=
  if selector then .imm (field.setWidth 32) else .reg field

/-- The S operand of formats DS and LDS: bit 18 is `I` (30_encoding.md R79, R80). -/
def operandS (w : Word) : Operand := operandOf (w.getLsbD 18) (fieldS w)

/-- The D operand of format LDS: bit 19 is `L` (30_encoding.md R80). -/
def operandDofLDS (w : Word) : Operand := operandOf (w.getLsbD 19) (fieldD w)

/-- The D operand of format D1: bit 18 is `L` (30_encoding.md R81). -/
def operandDofD1 (w : Word) : Operand := operandOf (w.getLsbD 18) (fieldD w)

/-- The instruction of a word whose row is known (30_encoding.md R84, step 4). -/
def Op.build (w : Word) : Op → Instr
  | .addpix => .addpix (fieldD w) (operandS w)
  | .mulpix => .mulpix (fieldD w) (operandS w)
  | .blnpix => .blnpix (fieldD w) (operandS w)
  | .mixpix => .mixpix (fieldD w) (operandS w)
  | .xstop => .xstop
  | .xinit => .xinit (operandDofLDS w) (operandS w)
  | .xzero => .xzero (operandDofLDS w) (operandS w)
  | .xcont => .xcont (operandDofLDS w) (operandS w)
  | .setdacs => .setdacs (operandDofD1 w)
  | .setxfrq => .setxfrq (operandDofD1 w)
  | .getxacc => .getxacc (fieldD w)
  | .setq => .setq (operandDofD1 w)
  | .setpiv => .setpiv (operandDofD1 w)
  | .setpix => .setpix (operandDofD1 w)
  | .augs => .augs (fieldN w)
  | .augd => .augd (fieldN w)

/-- The instruction of a 32-bit word by the opcode map; none when no row matches (30_encoding.md R84, step 5). -/
def decodeWord (w : Word) : Option Instr :=
  (Op.all.find? (Op.matchesWord w)).map (Op.build w)

/-- What the decoder answers on a list of bytes. -/
inductive Decoded where
  /-- An instruction and the bytes after it. -/
  | instr (i : Instr) (rest : List Byte)
  /-- Fewer than four bytes: not a whole word (30_encoding.md R77). -/
  | truncated
  /-- A word of no row of the opcode map (30_encoding.md R84, R90). -/
  | noRow
deriving DecidableEq, Repr

/-- The decoder, total on any bytes: the word's least significant byte lies first (log 4). -/
def decode : List Byte → Decoded
  | b0 :: b1 :: b2 :: b3 :: rest =>
    match decodeWord (Machine.leWord [b0, b1, b2, b3]) with
    | some i => .instr i rest
    | none => .noRow
  | _ => .truncated

/-- The instruction the decoder reads from the `nbits` low bits of `w`, every bit above them 0. -/
def decodeTableWord (nbits w : Nat) : Option Instr :=
  match decode (Machine.leBytes 4 (BitVec.ofNat 32 (w % 2 ^ nbits))) with
  | .instr i _ => some i
  | .truncated => none
  | .noRow => none

/-! The encoder. Condition `1111`, which the assembler emits when no condition is written (30_encoding.md R78). -/

/-- A word of formats DS, LDS and D1 by its fields (30_encoding.md R77). -/
def fieldsWord (op : BitVec 7) (c z i : BitVec 1) (d s : BitVec 9) : Word :=
  0xF#4 ++ op ++ c ++ z ++ i ++ d ++ s

/-- The selector bit of an operand. -/
def Operand.selector : Operand → BitVec 1
  | .reg _ => 0
  | .imm _ => 1

/-- The nine-bit field of an operand. -/
def Operand.field : Operand → BitVec 9
  | .reg n => n
  | .imm v => v.setWidth 9

/-- Format DS (30_encoding.md R79). -/
def encodeDS (c z : BitVec 1) (d : Reg) (o : Operand) : Word :=
  fieldsWord 0b1010010#7 c z o.selector d o.field

/-- Format LDS (30_encoding.md R80). -/
def encodeLDS (op : BitVec 7) (x : BitVec 1) (d o : Operand) : Word :=
  fieldsWord op x d.selector o.selector d.field o.field

/-- Format D1 (30_encoding.md R81). -/
def encodeD1 (ext : BitVec 9) (d : Operand) : Word :=
  fieldsWord 0b1101011#7 0 0 d.selector d.field ext

/-- The word of a well-formed instruction (30_encoding.md R79 to R81, R83). -/
def encode : Instr → Word
  | .addpix d o => encodeDS 0 0 d o
  | .mulpix d o => encodeDS 0 1 d o
  | .blnpix d o => encodeDS 1 0 d o
  | .mixpix d o => encodeDS 1 1 d o
  | .setpiv o => encodeD1 0b000111101#9 o
  | .setpix o => encodeD1 0b000111110#9 o
  | .setdacs o => encodeD1 0b000011100#9 o
  | .setxfrq o => encodeD1 0b000011101#9 o
  | .setq o => encodeD1 0b000101000#9 o
  | .xinit d o => encodeLDS 0b1100101#7 0 d o
  | .xstop => fieldsWord 0b1100101#7 0 1 1 0 0
  | .xzero d o => encodeLDS 0b1100101#7 1 d o
  | .xcont d o => encodeLDS 0b1100110#7 0 d o
  | .getxacc d => encodeD1 0b000011110#9 (.reg d)
  | .augs n => 0xF#4 ++ 0b11110#5 ++ n
  | .augd n => 0xF#4 ++ 0b11111#5 ++ n

/-- The bytes of a well-formed instruction, the least significant first (log 4). -/
def encodeBytes (i : Instr) : List Byte := Machine.leBytes 4 (encode i)

end Sys2Proof
end

