-- ==== Sys2Proof/Machine/Flags.lean ====
section
/-! DEFINITION. Flags. No rule of the spec reads or writes a flag and the model has none (10_state.md R25, D3). What
remains of flags is the condition field of an instruction word, which must be `1111` (30_encoding.md R78). -/

namespace Sys2Proof.Machine

/-- The condition field `EEEE`, bits 31:28 (30_encoding.md R77). -/
def conditionField (w : Word) : BitVec 4 := w.extractLsb' 28 4

/-- The condition is "always", the only one the spec admits (30_encoding.md R78). -/
def conditionAdmitted (w : Word) : Bool := conditionField w == 0xF#4

end Sys2Proof.Machine
end

