-- ==== Sys2Proof/Machine/Fetch.lean ====
section
/-! DEFINITION. Fetching the current instruction and the interleaving of the cog with its streamer
(30_encoding.md R84, 10_state.md R24, D2, D6, D27). -/

namespace Sys2Proof.Machine

/-- The byte address of the current instruction word: words are four bytes and lie one after the other (30_encoding.md
R77, log 4). -/
def Cog.fetchAddr (c : Cog) : Nat := 4 * c.pc

/-- The listed bytes from an address up to the first unlisted one, at most `n`. -/
def Memory.readRun (m : Memory) (a : Nat) : Nat → List Byte
  | 0 => []
  | n + 1 =>
    match Memory.read m a with
    | some b => b :: Memory.readRun m (a + 1) n
    | none => []

/-- What a fetch finds. -/
inductive Fetched where
  /-- No byte is listed: the program has run off its last statement (10_state.md R24, D27). -/
  | ended
  /-- The current instruction. -/
  | instr (i : Instr)
  /-- A word of which only some bytes are listed (log 5). -/
  | torn
  /-- A word the spec refuses (30_encoding.md R78, R84). -/
  | reject (r : Refusal)
deriving DecidableEq, Repr

/-- Steps (1) to (5) of 30_encoding.md R84 on the bytes of one word, the condition first. -/
def decodeFetched (bs : List Byte) : Fetched :=
  match bs with
  | [] => .ended
  | _ :: _ =>
    if bs.length < 4 then .torn
    else if conditionAdmitted (leWord bs) then
      match decode bs with
      | .instr i _ => .instr i
      | .truncated => .torn
      | .noRow => .reject .notAnInstruction
    else .reject .conditionNotModelled

/-- The fetch at the program counter. -/
def fetch (s : State) : Fetched := decodeFetched (Memory.readRun s.prog.text s.cog.fetchAddr 4)

/-- The instruction is held in this state: XZERO or XCONT on a full buffer (42_streamer_instructions.md R143). -/
def holds (i : Instr) (s : State) : Bool :=
  match i with
  | .xzero _ _ => blocked s
  | .xcont _ _ => blocked s
  | .addpix _ _ | .mulpix _ _ | .blnpix _ _ | .mixpix _ _ | .setpiv _ | .setpix _ | .setdacs _ => false
  | .setxfrq _ | .setq _ | .xinit _ _ | .xstop | .getxacc _ | .augs _ | .augd _ => false

/-- The cog's turn is over: a free number of system clocks passes before its next one (D6, log 16). While the cog is held
at least one passes (60_exceptions.md R226, D6: streamer clocks continue). -/
def endTurn (held : Bool) (s : State) : State :=
  s.withSched { s.sched with
    due := Config.clocksBetween s.sched.turns + (if held then 1 else 0)
    turns := s.sched.turns + 1 }

/-- One of the clocks that are due passes. -/
def dueClock (s : State) : Result := systemClock (s.withSched { s.sched with due := s.sched.due - 1 })

end Sys2Proof.Machine
end

