-- ==== Sys2Proof/Machine/Step.lean ====
section
/-! DEFINITION. One step: a system clock that is due, else the cog's current instruction; a system clock when the program
has ended (D6, D27). -/

namespace Sys2Proof.Machine

/-- The cog's turn on a fetched instruction. -/
def cogTurn (i : Instr) (s : State) : Host.Outcome State Fault Refusal :=
  match exec i s with
  | .next t => .next (endTurn (holds i s) t)
  | .fault f => .fault f
  | .refused r => .refused r

/-- One step of the machine. -/
def step (s : State) : Host.Outcome State Fault Refusal :=
  if s.sched.due = 0 then
    match fetch s with
    | .ended => systemClock s
    | .instr i => cogTurn i s
    | .torn => .fault .tornFetch
    | .reject r => .refused r
  else dueClock s

/-- The state with the instruction whose `nbits` low bits are `w` at the program counter, and the cog on turn: it stands for
the load of a program from outside the machine (log 4). -/
def State.withFetchWord (s : State) (nbits w : Nat) : State :=
  { s with
    prog := { s.prog with
      text := Memory.writeAll s.prog.text s.cog.fetchAddr (leBytes 4 (BitVec.ofNat 32 (w % 2 ^ nbits))) }
    sched := { s.sched with due := 0 } }

end Sys2Proof.Machine
end

