-- ==== Sys2Proof/Machine/Output.lean ====
section
/-! DEFINITION. What the cog puts out on a clock, as functions of the state: XOUT, XPIN, PINOUT, DACOUT
(10_state.md R29, R38; 41_dacs.md R121, R123, R124; 43_streamer_modes.md R180 to R183, R191 to R197). -/

namespace Sys2Proof.Machine

/-- `{X3, X2, X1, X0}` of the running command, 43_streamer_modes.md R191 to R197; zeros when its mode has no layout
(log 32). -/
def xout (s : State) : Channels :=
  match modeOf s.str.xcmd with
  | .immLut _ | .fifoLut _ _ => channelsOf (Bank.read s.lut (s.str.lutTarget.getD 0))
  | .immPins sh | .fifoPins sh => chan sh.n sh.m s.str.value
  | .fifoRgb .luma8 => luma8 (s.str.xsrc.extractLsb' 0 3).toNat (s.str.value.setWidth 8)
  | .fifoRgb .rgbi8 | .fifoRgb .rgb8 | .fifoRgb .rgb16 | .fifoRgb .rgb24 => ⟨0, 0, 0, 0⟩
  | .pinsIn _ | .adcIn _ | .dds _ | .undefined => ⟨0, 0, 0, 0⟩

/-- The value a mode presents to pins, 43_streamer_modes.md R191 to R196. -/
def pinValue (s : State) : Word :=
  match modeOf s.str.xcmd with
  | .immPins _ | .fifoPins _ => s.str.value
  | _ => (xout s).word

/-- The mode is an output mode whose values the spec gives, 43_streamer_modes.md R182. -/
def Streamer.outputs (x : Streamer) : Bool := x.layout.isSome

/-- `XPIN`, 43_streamer_modes.md R182. -/
def xpin (s : State) : BitVec 64 :=
  if s.str.xcnt ≠ 0 ∧ s.str.outputs ∧ eBit s.str.xcmd then placePins (pinBase s.str.xcmd) (pinValue s) else 0

/-- `PINOUT[63:0] = {OUTB, OUTA} | XPIN`, 43_streamer_modes.md R182. -/
def pinOut (s : State) : BitVec 64 := (s.cog.outB ++ s.cog.outA : BitVec 64) ||| xpin s

/-- `{INB, INA}`, 10_state.md R23. -/
def pinsIn (s : State) : BitVec 64 := s.cog.inB ++ s.cog.inA

/-- The sample of the running input mode's pins, 43_streamer_modes.md R183. What the mode does with it is lost
(R198). -/
def inputSample (s : State) : Option Word :=
  match modeOf s.str.xcmd with
  | .pinsIn sh => some (samplePins (pinBase s.str.xcmd) sh.w (pinsIn s))
  | _ => none

/-- `DACOUT[n]`, 41_dacs.md R123. Under the colorspace converter it is a free value (R125, log 20). -/
def dacOut (s : State) (n : Fin 4) : Byte :=
  if s.dac.csOn then Config.colorspaceValue s.sched.clocks n.val
  else if s.str.xcnt ≠ 0 then (route (ddddField s.str.xcmd) n).apply (xout s) (s.dac.bg.get n)
  else s.dac.bg.get n

/-- The one channel that can drive a pin: `p mod 4`, 41_dacs.md R121. -/
def channelOfPin (p : Fin 64) : Fin 4 := ⟨p.val % 4, Nat.mod_lt _ (by decide)⟩

/-- The channel value a pin configured for this cog's DAC-channel output is driven from, 41_dacs.md R124. -/
def pinDac (s : State) (p : Fin 64) : Byte := dacOut s (channelOfPin p)

end Sys2Proof.Machine
end

