-- ==== Sys2Proof/Safety.lean ====
section
/-! DEFINITION. The terms claims use: launch premises, the invariant of the machine, safe runs. -/

namespace Sys2Proof.Machine

/-- The launch premise `StreamerIdle`, 70_reset_and_hazards.md R241. -/
def StreamerIdle (s : State) : Prop := s.str.xcnt = 0 ∧ s.str.xbuf = none

/-- The launch premises of 70_reset_and_hazards.md R241 together. -/
def LaunchPremises (s : State) : Prop :=
  StreamerIdle s ∧ s.cog.qpend = none ∧ s.cog.nexts = none ∧ s.dac.csOn = false

/-- The three memories are in canonical form and inside their address spaces. -/
def StorageSound (s : State) : Prop :=
  Bank.wf s.par.nreg s.cog.regs = true ∧ Bank.wf s.par.lutSize s.lut = true ∧ Memory.wf s.prog.text = true

/-- A waiting command stands behind a running one and came from XZERO or XCONT (10_state.md R37). -/
def BufferSound (x : Streamer) : Prop :=
  ∀ c, x.xbuf = some c → x.xcnt ≠ 0 ∧ c.kind ≠ .init

/-- A running command is of a mode with a meaning, its FIFO is ready if it reads one, its data is S if it reads none, and its
lookup address exists (42_streamer_instructions.md R138; 43_streamer_modes.md R188, R190). -/
def RunningSound (s : State) : Prop :=
  s.str.xcnt ≠ 0 →
    (∃ l, s.str.layout = some l ∧ (l.fifo = true → s.fifo.rdReady = true) ∧ (l.fifo = false → s.str.xdat = s.str.xsrc)) ∧
    ∀ a, s.str.lutTarget = some a → a < s.par.lutSize

/-- A prefix word can separate only a SETQ that is pending (30_encoding.md R83). -/
def SplitSound (c : Cog) : Prop := c.qSplit = true → c.qpend.isSome = true

/-- The accumulators are numbers of `GACC_BITS` bits (10_state.md R41). -/
def AccumulatorsSound (s : State) : Prop := s.str.xacx < 2 ^ s.par.gaccBits ∧ s.str.xacy < 2 ^ s.par.gaccBits

/-- The lookup RAM has at least the 481 words that the base field can name (00_scope.md R6). -/
def ParamsSound (p : Params) : Prop := 481 ≤ p.lutSize

/-- The machine's invariant. -/
def MachineInv (s : State) : Prop :=
  StorageSound s ∧ BufferSound s.str ∧ RunningSound s ∧ SplitSound s.cog ∧ AccumulatorsSound s ∧ ParamsSound s.par

/-- `k` steps from `s` end in `t`: no fault and no refusal on the way. -/
def Reaches (k : Nat) (s t : State) : Prop := Host.Core.run Sys2Proof.core k s = .next t

/-- A run of `k` steps is safe: it meets no fault and no refusal. -/
def SafeRun (k : Nat) (s : State) : Prop := ∃ t : State, Reaches k s t

/-- The operand is an immediate or names a general register (10_state.md R21, D4). -/
def PlainOperand (o : Operand) (s : State) : Prop := namesOutside s.par o = false

/-- The register can be written: a general register without program text (10_state.md R21, 20_memory.md R66). -/
def Writable (d : Reg) (s : State) : Prop := outsideGeneral s.par d = false ∧ d ∉ s.prog.regs

/-- No prefix word stands between a pending SETQ and the current instruction (30_encoding.md R83). -/
def SetqAdjacent (s : State) : Prop := (s.cog.qpend.isSome && s.cog.qSplit) = false

/-- The cog register an instruction writes (10_state.md R22). -/
def destination : Instr → Option Reg
  | .addpix d _ | .mulpix d _ | .blnpix d _ | .mixpix d _ | .getxacc d => some d
  | .setpiv _ | .setpix _ | .setdacs _ | .setxfrq _ | .setq _ => none
  | .xinit _ _ | .xstop | .xzero _ _ | .xcont _ _ | .augs _ | .augd _ => none

/-- The instruction has an operand that names no general register (10_state.md R21, D4). -/
def usesOutside (p : Params) : Instr → Bool
  | .addpix d o | .mulpix d o | .blnpix d o | .mixpix d o => outsideGeneral p d || namesOutside p o
  | .getxacc d => outsideGeneral p d
  | .setpiv o | .setpix o | .setdacs o | .setxfrq o | .setq o => namesOutside p o
  | .xinit d o | .xzero d o | .xcont d o => namesOutside p d || namesOutside p o
  | .xstop | .augs _ | .augd _ => false

/-- Instructions one after the other. -/
def execAll : List Instr → State → Result
  | [], s => .next s
  | i :: is, s =>
    match exec i s with
    | .next t => execAll is t
    | .fault f => .fault f
    | .refused r => .refused r

/-- The same answer with the program counter `k` words further on. -/
def laterBy (k : Nat) (r : Result) : Result :=
  match r with
  | .next t => .next (t.withCog { t.cog with pc := t.cog.pc + k })
  | .fault f => .fault f
  | .refused e => .refused e

/-- `k` streamer clocks one after the other. -/
def runClocks : Nat → State → Result
  | 0, s => .next s
  | k + 1, s =>
    match streamerClock s with
    | .next t => runClocks k t
    | .fault f => .fault f
    | .refused r => .refused r

/-- The state after an accepted start of a command: its registers, and its first data from S or from the FIFO
(42_streamer_instructions.md R138, 43_streamer_modes.md R188). -/
def startedState (c : Command) (s : State) : State :=
  let t := s.withStr (s.str.begin c)
  if c.count = 0 then t
  else
    match t.str.layout with
    | none => t
    | some l =>
      if l.fifo then
        (t.withStr { t.str with xdat := s.fifo.value s.par.hubOrder (l.chunk / 8) }).withFifo (s.fifo.consume (l.chunk / 8))
      else t.withStr { t.str with xdat := c.s }

/-- A start is accepted: its count is 0, or its mode has a meaning, the FIFO it reads is ready and the lookup word it
presents first exists (42_streamer_instructions.md R138; 43_streamer_modes.md R190, R198; 20_memory.md R55). -/
def Startable (c : Command) (s : State) : Prop :=
  c.count = 0 ∨
    ∃ l, (modeOf (c.d.extractLsb' 16 16)).layout = some l ∧ (l.fifo = true → s.fifo.rdReady = true) ∧
      ∀ a, (startedState c s).str.lutTarget = some a → a < s.par.lutSize

/-- The state after an accepted advance: the next index, and a new chunk from the FIFO when the index enters one
(42_streamer_instructions.md R145, 43_streamer_modes.md R188). -/
def advancedState (s : State) : State :=
  let t := s.withStr { s.str with xidx := s.str.xidx + 1 }
  match t.str.layout with
  | none => t
  | some l =>
    if l.fifo ∧ t.str.xidx % l.values = 0 then
      (t.withStr { t.str with xdat := s.fifo.value s.par.hubOrder (l.chunk / 8) }).withFifo (s.fifo.consume (l.chunk / 8))
    else t

/-- An advance is accepted: the mode has a meaning, the FIFO it reads is ready, and the lookup word it presents next exists. -/
def Advanceable (s : State) : Prop :=
  ∃ l, s.str.layout = some l ∧ (l.fifo = true → s.fifo.rdReady = true) ∧
    ∀ a, (advancedState s).str.lutTarget = some a → a < s.par.lutSize

/-- A free command can be given: plain operands, and no prefix word after a pending SETQ. -/
def CommandAdmitted (d o : Operand) (s : State) : Prop :=
  PlainOperand d s ∧ PlainOperand o s ∧ SetqAdjacent s

end Sys2Proof.Machine
end

