-- ==== Sys2Proof/Certificates/Slice0/Obligations.lean ====
section
/-! DEFINITION. The statements for the provers. `retire` stands for the completion of an instruction: `pc + 1`, QPEND and
NEXTS absent (10_state.md R24, R39, R43), and the model's choices that a pending AUGD or AUGS is used up by an immediate D or
S and that `qSplit` is cleared (30_encoding.md R83; DEDUCED and DESIGN CHOICE, logs 23, 25).
A result statement answers the whole next state, so it is the instruction's frame as well. -/

open Sys2Proof Sys2Proof.Machine

/-! ### Reset and the invariant -/

/-- 70_reset_and_hazards.md R240: the one reset value the source gives, and what it means for the NCO. -/
def Obligations.CogStartFrequencyRollsOverEveryClock : Prop :=
  State.reset.str.xfrq = 0x80000000 ∧
    ∀ s : State, s.str.xfrq = 0x80000000 → s.str.xcnt ≠ 0 → s.str.runsDds = false →
      streamerClock s = onRollover (s.withStr { s.str with xphs := ncoStep 0x80000000 s.str.xphs })

/-- 70_reset_and_hazards.md R241, D8: the launch premises (the spec's decision, log 12) hold at reset; no channel is
overridden and the streamer's pin bus is zero. -/
def Obligations.ResetMeetsLaunchPremises : Prop :=
  LaunchPremises State.reset ∧ xpin State.reset = 0 ∧
    ∀ n : Fin 4, dacOut State.reset n = State.reset.dac.bg.get n

/-- The machine's invariant holds at cog start, with the parameters' usual values, which are PRESUMED (logs 7 to 10). -/
def Obligations.ResetMeetsTheMachineInvariant : Prop := MachineInv State.reset

/-- Every step keeps the machine's invariant, for all values of the open parameters: canonical storage, a sound command
buffer, a running command with a meaning, ready data and an existing lookup address, a prefix mark only beside a pending SETQ,
accumulators of `GACC_BITS` bits, and a lookup RAM of at least 481 words. -/
def Obligations.StepKeepsTheMachineInvariant : Prop :=
  ∀ s t : State, MachineInv s → step s = .next t → MachineInv t

/-! ### Encoding and fetching -/

/-- Decode and encode agree on every well-formed instruction. PRESUMED bit patterns (log 1). -/
def Obligations.DecodeOfEncodeIsTheInstruction : Prop :=
  ∀ (i : Instr) (rest : List Byte), i.wellFormed = true → decode (encodeBytes i ++ rest) = .instr i rest

/-- Every word with condition `1111` that the decoder accepts is the encoding of the instruction it reads: no accepted word
has a second meaning. PRESUMED bit patterns (log 1). -/
def Obligations.EncodeOfDecodeIsTheWord : Prop :=
  ∀ (w : Word) (i : Instr), conditionAdmitted w = true → decodeWord w = some i →
    i.wellFormed = true ∧ encode i = w

/-- Words written out in 95_test_vectors.md section 5. -/
def Obligations.VectorWordsDecode : Prop :=
  decodeWord 0xFA44_15FF = some (.addpix 10 (.imm 0x1FF)) ∧
  decodeWord 0xFA58_140B = some (.mixpix 10 (.reg 11)) ∧
  decodeWord 0xFD65_003D = some (.setpiv (.imm 0x80)) ∧
  decodeWord 0xFD60_1A1C = some (.setdacs (.reg 13)) ∧
  decodeWord 0xFD60_1E1E = some (.getxacc 15) ∧
  decodeWord 0xFCA0_2815 = some (.xinit (.reg 20) (.reg 21)) ∧
  decodeWord 0xFCAC_0000 = some .xstop ∧
  decodeWord 0xFCC4_2800 = some (.xcont (.reg 20) (.imm 0)) ∧
  decodeWord 0xFFB2_0700 = some (.augd ((0x640E0004 : Word).extractLsb' 9 23))

/-- A step on the cog's turn runs the instruction the bytes at the program counter decode to, and then gives the streamer
the free number of clocks, at least one when the instruction is held (logs 16, 17). -/
def Obligations.StepRunsTheDecodedInstruction : Prop :=
  ∀ (s : State) (i : Instr) (bs rest : List Byte), s.sched.due = 0 →
    Memory.readRun s.prog.text (4 * s.cog.pc) 4 = bs → conditionAdmitted (leWord bs) = true →
    decode bs = .instr i rest →
      (∀ t, exec i s = .next t → step s = .next (t.withSched { t.sched with
        due := Config.clocksBetween t.sched.turns + (if holds i s then 1 else 0), turns := t.sched.turns + 1 })) ∧
      (∀ f, exec i s = .fault f → step s = .fault f) ∧
      (∀ r, exec i s = .refused r → step s = .refused r)

/-- A due clock passes, and a cog that has run off its program leaves the streamer running (D6, D27). -/
def Obligations.ClocksPassBetweenTurnsAndAfterTheEnd : Prop :=
  (∀ s : State, s.sched.due ≠ 0 →
    step s = systemClock (s.withSched { s.sched with due := s.sched.due - 1 })) ∧
  (∀ s : State, s.sched.due = 0 → Memory.read s.prog.text (4 * s.cog.pc) = none → step s = systemClock s)

/-- A word with another condition than always, and a word of no row, are refused by name (30_encoding.md R78, R84, U20). -/
def Obligations.StepRefusesWordsOutsideTheSpec : Prop :=
  ∀ (s : State) (bs : List Byte), s.sched.due = 0 →
    Memory.readRun s.prog.text (4 * s.cog.pc) 4 = bs → bs.length = 4 →
      (conditionField (leWord bs) ≠ 0xF#4 → step s = .refused .conditionNotModelled) ∧
      (conditionField (leWord bs) = 0xF#4 → decodeWord (leWord bs) = none → step s = .refused .notAnInstruction)

/-- The word of a well-formed instruction, loaded at the program counter, is the instruction the cog fetches there. -/
def Obligations.LoadedWordIsFetched : Prop :=
  ∀ (s : State) (i : Instr), i.wellFormed = true →
    fetch (s.withFetchWord 32 (encode i).toNat) = .instr i

/-! ### The pixel mixer -/

/-- 40_pixel_mixer.md R101: the lane function. -/
def Obligations.PixelLaneIsALimitedSumOfProducts : Prop :=
  ∀ d s dmix smix : Byte,
    (pixLane d s dmix smix).toNat = min ((d.toNat * dmix.toNat + s.toNat * smix.toNat + 255) / 256) 255 ∧
    d.toNat * dmix.toNat + s.toNat * smix.toNat + 255 ≤ 130305 ∧
    255 * 255 + 255 * 255 + 255 = 130305 ∧ 130305 / 256 = 509 ∧
    pixLane d 0 0xFF 0 = d

/-- A lane of a result depends on that lane of the operands alone (40_pixel_mixer.md R100). -/
def Obligations.PixelLanesAreIndependent : Prop :=
  ∀ (dmix smix : Byte → Byte → Byte) (d d' s s' : Word) (k : Nat), k < 4 →
    byteAt d k = byteAt d' k → byteAt s k = byteAt s' k →
      byteAt (mixLanes dmix smix d s) k = byteAt (mixLanes dmix smix d' s') k

/-- ADDPIX completes and adds bytes with saturation (40_pixel_mixer.md R102, R103). -/
def Obligations.AddpixAddsBytesWithSaturation : Prop :=
  ∀ (d : Reg) (o : Operand) (s : State), Writable d s → PlainOperand o s →
    let lane := fun k => BitVec.ofNat 8
      (min ((byteAt (s.cog.readReg d) k).toNat + (byteAt (valueS s.cog o) k).toNat) 255)
    exec (.addpix d o) s = .next (s.withCog
      ((s.cog.writeReg d (pack (lane 3) (lane 2) (lane 1) (lane 0))).retire false (isImmediate o)))

/-- MULPIX completes and multiplies bytes, `$FF` being 1.0: the lane is the product divided by 256, rounded up
(40_pixel_mixer.md R102, R104). -/
def Obligations.MulpixMultipliesBytesRoundingUp : Prop :=
  ∀ (d : Reg) (o : Operand) (s : State), Writable d s → PlainOperand o s →
    let lane := fun k => BitVec.ofNat 8
      (((byteAt (s.cog.readReg d) k).toNat * (byteAt (valueS s.cog o) k).toNat + 255) / 256)
    exec (.mulpix d o) s = .next (s.withCog
      ((s.cog.writeReg d (pack (lane 3) (lane 2) (lane 1) (lane 0))).retire false (isImmediate o)))

/-- BLNPIX completes and blends bytes by V; the limit never acts (40_pixel_mixer.md R102, R105). -/
def Obligations.BlnpixBlendsBytesByV : Prop :=
  ∀ (d : Reg) (o : Operand) (s : State), Writable d s → PlainOperand o s →
    let lane := fun k => BitVec.ofNat 8
      (((byteAt (s.cog.readReg d) k).toNat * (255 - s.mixer.v.toNat) +
        (byteAt (valueS s.cog o) k).toNat * s.mixer.v.toNat + 255) / 256)
    exec (.blnpix d o) s = .next (s.withCog
      ((s.cog.writeReg d (pack (lane 3) (lane 2) (lane 1) (lane 0))).retire false (isImmediate o)))

/-- MIXPIX completes and forms the sum of products with the two terms M selects from the source's table
(40_pixel_mixer.md R102, R106; 10_state.md R27). -/
def Obligations.MixpixMixesBytesByM : Prop :=
  ∀ (d : Reg) (o : Operand) (s : State), Writable d s → PlainOperand o s →
    let v := s.mixer.v
    let term := fun (sel : Nat) (db sb : Byte) =>
      (([0x00, 0xFF, v, v ^^^ 0xFF, sb, sb ^^^ 0xFF, db, db ^^^ 0xFF] : List Byte)[sel]?).getD 0
    let lane := fun k =>
      let db := byteAt (s.cog.readReg d) k
      let sb := byteAt (valueS s.cog o) k
      BitVec.ofNat 8 (min ((db.toNat * (term (s.mixer.m.toNat / 8) db sb).toNat +
        sb.toNat * (term (s.mixer.m.toNat % 8) db sb).toNat + 255) / 256) 255)
    exec (.mixpix d o) s = .next (s.withCog
      ((s.cog.writeReg d (pack (lane 3) (lane 2) (lane 1) (lane 0))).retire false (isImmediate o)))

/-- MIXPIX at the values of M that make it another operation, also where it is refused; BLNPIX at `V = $00` keeps D and at
`V = $FF` copies S (40_pixel_mixer.md R105, R106, laws). -/
def Obligations.MixAndBlendBecomeSimplerOperations : Prop :=
  ∀ (d : Reg) (o : Operand) (s : State),
    (s.mixer.m = 0b001001 → exec (.mixpix d o) s = exec (.addpix d o) s) ∧
    (s.mixer.m = 0b100000 → exec (.mixpix d o) s = exec (.mulpix d o) s) ∧
    (s.mixer.m = 0b011010 → exec (.mixpix d o) s = exec (.blnpix d o) s) ∧
    (Writable d s → PlainOperand o s →
      (s.mixer.m = 0b000000 → exec (.mixpix d o) s =
        .next (s.withCog ((s.cog.writeReg d 0).retire false (isImmediate o)))) ∧
      (s.mixer.m = 0b001000 → exec (.mixpix d o) s =
        .next (s.withCog ((s.cog.writeReg d (s.cog.readReg d)).retire false (isImmediate o)))) ∧
      (s.mixer.m = 0b000001 → exec (.mixpix d o) s =
        .next (s.withCog ((s.cog.writeReg d (valueS s.cog o)).retire false (isImmediate o)))) ∧
      (s.mixer.v = 0x00 → exec (.blnpix d o) s =
        .next (s.withCog ((s.cog.writeReg d (s.cog.readReg d)).retire false (isImmediate o)))) ∧
      (s.mixer.v = 0xFF → exec (.blnpix d o) s =
        .next (s.withCog ((s.cog.writeReg d (valueS s.cog o)).retire false (isImmediate o)))))

/-- SETPIV completes and sets V to bits 7:0 of its operand; SETPIX completes and sets M to bits 5:0
(40_pixel_mixer.md R107, R108). -/
def Obligations.SetpivAndSetpixSetTheMixer : Prop :=
  ∀ (o : Operand) (s : State), PlainOperand o s →
    exec (.setpiv o) s = .next ((s.withCog (s.cog.retire (isImmediate o) false)).withMixer
      { v := BitVec.ofNat 8 ((valueD s.cog o).toNat % 256), m := s.mixer.m }) ∧
    exec (.setpix o) s = .next ((s.withCog (s.cog.retire (isImmediate o) false)).withMixer
      { v := s.mixer.v, m := BitVec.ofNat 6 ((valueD s.cog o).toNat % 64) })

/-! ### The DAC channels -/

/-- SETDACS completes, writes the four background bytes together, and a channel that nothing overrides shows its byte
(41_dacs.md R122, R123). -/
def Obligations.SetdacsSetsTheFourChannels : Prop :=
  ∀ (o : Operand) (s : State), PlainOperand o s →
    let v := (valueD s.cog o).toNat
    let t := (s.withCog (s.cog.retire (isImmediate o) false)).withDac
      { bg := { c3 := BitVec.ofNat 8 (v / 2 ^ 24), c2 := BitVec.ofNat 8 (v / 2 ^ 16 % 256),
                c1 := BitVec.ofNat 8 (v / 2 ^ 8 % 256), c0 := BitVec.ofNat 8 (v % 256) }
        csOn := s.dac.csOn }
    exec (.setdacs o) s = .next t ∧
      (s.dac.csOn = false → s.str.xcnt = 0 → ∀ n : Fin 4, dacOut t n = BitVec.ofNat 8 (v / 2 ^ (8 * n.val) % 256))

/-- 43_streamer_modes.md R180 and 41_dacs.md R123: the routing table, while the streamer is active and the colorspace
converter does not override; the background when it is stopped. Channel 3 comes first. -/
def Obligations.DacRoutingFollowsTheTable : Prop :=
  ∀ s : State, s.dac.csOn = false →
    let x := xout s
    let b := s.dac.bg
    let now : List Byte := [dacOut s 3, dacOut s 2, dacOut s 1, dacOut s 0]
    (s.str.xcnt = 0 → now = [b.c3, b.c2, b.c1, b.c0]) ∧
    (s.str.xcnt ≠ 0 →
      ([ [b.c3, b.c2, b.c1, b.c0], [x.c0, x.c0, x.c0, x.c0], [b.c3, b.c2, x.c0, x.c0], [x.c0, x.c0, b.c1, b.c0],
         [b.c3, b.c2, b.c1, x.c0], [b.c3, b.c2, x.c0, b.c0], [b.c3, x.c0, b.c1, b.c0], [x.c0, b.c2, b.c1, b.c0],
         [~~~x.c0, x.c0, ~~~x.c0, x.c0], [b.c3, b.c2, ~~~x.c0, x.c0], [~~~x.c0, x.c0, b.c1, b.c0],
         [x.c1, x.c0, x.c1, x.c0], [b.c3, b.c2, x.c1, x.c0], [x.c1, x.c0, b.c1, b.c0],
         [~~~x.c1, x.c1, ~~~x.c0, x.c0], [x.c3, x.c2, x.c1, x.c0] ] : List (List Byte))[ddddField s.str.xcmd]? =
        some now)

/-- 41_dacs.md R121: channel `n` drives exactly the pins whose number is `n` modulo 4. -/
def Obligations.ChannelDrivesPinsOfItsResidue : Prop :=
  ∀ (s : State) (p : Fin 64) (n : Fin 4),
    (channelOfPin p = n ↔ p.val % 4 = n.val) ∧ (p.val % 4 = n.val → pinDac s p = dacOut s n)

/-! ### Streamer instructions -/

/-- SETXFRQ completes and sets the NCO frequency; SETQ completes and leaves its value for the next instruction
(42_streamer_instructions.md R133, R151). -/
def Obligations.SetxfrqAndSetqTakeTheirOperand : Prop :=
  ∀ (o : Operand) (s : State), PlainOperand o s →
    exec (.setxfrq o) s = .next ((s.withCog (s.cog.retire (isImmediate o) false)).withStr
      { s.str with xfrq := valueD s.cog o }) ∧
    exec (.setq o) s = .next (s.withCog
      { s.cog.retire (isImmediate o) false with qpend := some (valueD s.cog o) })

/-- XINIT completes and starts its command at once: when nothing is buffered, or with count 0 also then, dropping what is
buffered. With another count over a buffered command it is refused, the spec's decision D10, log 37
(42_streamer_instructions.md R136, R138). -/
def Obligations.XinitStartsItsCommandAtOnce : Prop :=
  ∀ (d o : Operand) (s : State), CommandAdmitted d o s →
    let c : Command := ⟨.init, valueD s.cog d, valueS s.cog o, s.cog.qpend⟩
    let u := startedState c (s.withStr { s.str with xbuf := none })
    (s.str.xbuf = none ∨ c.count = 0 → Startable c (s.withStr { s.str with xbuf := none }) →
      exec (.xinit d o) s = .next (u.withCog (s.cog.retire (isImmediate d) (isImmediate o))) ∧
      u.str.xphs = 0 ∧ u.str.xcnt = c.count ∧ u.str.xbuf = none ∧ u.str.xfrq = s.cog.qpend.getD s.str.xfrq) ∧
    (s.str.xbuf.isSome = true → c.count ≠ 0 → exec (.xinit d o) s = .refused .xinitOverBuffered)

/-- XSTOP completes and stops the streamer at once, whatever state it is in (42_streamer_instructions.md R137, D26, log 36). -/
def Obligations.XstopStopsTheStreamer : Prop :=
  ∀ s : State, s.cog.augs = none → s.cog.augd = none → SetqAdjacent s →
    exec .xstop s = .next ((s.withStr { s.str with
      xfrq := s.cog.qpend.getD s.str.xfrq, xphs := 0, xcnt := 0, xcmd := 0, xsrc := 0, xidx := 0,
      xbuf := none }).withCog (s.cog.retire true true))

/-- XSTOP is XINIT #0,#0, unless a GETXACC directly before it leaves a value for an S operand, which XSTOP does not have
(30_encoding.md R74; 42_streamer_instructions.md R137, R150; DEDUCED, logs 27 and 28). -/
def Obligations.XstopIsXinitOfZeros : Prop :=
  ∀ s : State, s.cog.nexts = none ∨ s.cog.augd.isSome = true ∨ s.cog.augs.isSome = true →
    exec .xstop s = exec (.xinit (.imm 0) (.imm 0)) s

/-- XZERO and XCONT complete on a stopped streamer and start at once, XZERO zeroing the phase and XCONT keeping it
(42_streamer_instructions.md R139 to R141). -/
def Obligations.XzeroAndXcontStartOnAStoppedStreamer : Prop :=
  ∀ (d o : Operand) (s : State), CommandAdmitted d o s → s.str.xcnt = 0 →
    let z := startedState ⟨.zero, valueD s.cog d, valueS s.cog o, s.cog.qpend⟩ s
    let c := startedState ⟨.cont, valueD s.cog d, valueS s.cog o, s.cog.qpend⟩ s
    (Startable ⟨.zero, valueD s.cog d, valueS s.cog o, s.cog.qpend⟩ s →
      exec (.xzero d o) s = .next (z.withCog (s.cog.retire (isImmediate d) (isImmediate o))) ∧ z.str.xphs = 0) ∧
    (Startable ⟨.cont, valueD s.cog d, valueS s.cog o, s.cog.qpend⟩ s →
      exec (.xcont d o) s = .next (c.withCog (s.cog.retire (isImmediate d) (isImmediate o))) ∧
        c.str.xphs = s.str.xphs)

/-- 42_streamer_instructions.md R142: behind a running command the record, with its kind and its SETQ value, is placed in
the empty buffer and the instruction completes. -/
def Obligations.XzeroAndXcontFillTheEmptyBuffer : Prop :=
  ∀ (d o : Operand) (s : State), CommandAdmitted d o s → s.str.xcnt ≠ 0 → s.str.xbuf = none →
    exec (.xzero d o) s = .next ((s.withStr { s.str with
        xbuf := some ⟨.zero, valueD s.cog d, valueS s.cog o, s.cog.qpend⟩ }).withCog
      (s.cog.retire (isImmediate d) (isImmediate o))) ∧
    exec (.xcont d o) s = .next ((s.withStr { s.str with
        xbuf := some ⟨.cont, valueD s.cog d, valueS s.cog o, s.cog.qpend⟩ }).withCog
      (s.cog.retire (isImmediate d) (isImmediate o)))

/-- A command on a full buffer is held: it changes nothing, stays the current instruction, and at least one clock passes
before its next attempt (42_streamer_instructions.md R143, D6; the form of the hold is DESIGN CHOICE, log 17). -/
def Obligations.FullBufferHoldsTheCog : Prop :=
  ∀ (d o : Operand) (s : State), CommandAdmitted d o s → s.str.xcnt ≠ 0 → s.str.xbuf.isSome = true →
    exec (.xzero d o) s = .next s ∧ exec (.xcont d o) s = .next s ∧
    ∀ i, i = .xzero d o ∨ i = .xcont d o → s.sched.due = 0 → fetch s = .instr i →
      ∃ t, step s = .next t ∧ t.cog = s.cog ∧ t.str = s.str ∧ 0 < t.sched.due

/-- Only the start of the buffered command on a rollover clock lifts a hold (42_streamer_instructions.md R143). -/
def Obligations.HoldIsLiftedOnlyByTheBufferedStart : Prop :=
  ∀ s t : State, blocked s = true → streamerClock s = .next t → blocked t = false →
    rollsOver (ncoStep s.str.xfrq s.str.xphs) = true ∧ (s.str.xcnt = 1 ∨ s.str.xcnt = 0xFFFF) ∧
      ∃ c, s.str.xbuf = some c ∧ t.str.xbuf = none ∧ t.str.xcmd = c.d.extractLsb' 16 16 ∧ t.str.xcnt = c.count

/-- A hold at frequency 0 never lifts: after any number of steps the cog is at the same instruction and the buffer is
full (42_streamer_instructions.md R143, 70_reset_and_hazards.md R250, U7). -/
def Obligations.HoldAtZeroFrequencyNeverLifts : Prop :=
  ∀ (k : Nat) (d o : Operand) (i : Instr) (s : State), i = .xzero d o ∨ i = .xcont d o →
    CommandAdmitted d o s → fetch s = .instr i → s.str.xcnt ≠ 0 → s.str.xbuf.isSome = true → s.str.xfrq = 0 →
    s.str.runsDds = false →
      ∃ t, Reaches k s t ∧ t.cog.pc = s.cog.pc ∧ t.str.xcnt = s.str.xcnt ∧ t.str.xbuf = s.str.xbuf

/-- GETXACC completes: X to D, Y to the next S, each widened or truncated from `GACC_BITS` to 32 bits, both accumulators
cleared. Which values X and Y are is free: nothing is known of `Config.goertzelX` and `Config.goertzelY`
(42_streamer_instructions.md R150, U9, log 19). -/
def Obligations.GetxaccMovesAndClearsTheAccumulators : Prop :=
  ∀ (d : Reg) (s : State), Writable d s →
    let x := BitVec.ofNat 32 (Config.goertzelX s.sched.draws % 2 ^ s.par.gaccBits)
    let y := BitVec.ofNat 32 (Config.goertzelY s.sched.draws % 2 ^ s.par.gaccBits)
    exec (.getxacc d) s = .next { s with
      cog := { (s.cog.writeReg d x).retire false false with nexts := some y }
      str := { s.str with xacx := 0, xacy := 0 }
      sched := { s.sched with draws := s.sched.draws + 1 } }

/-- After GETXACC every S operand has the value Y, whatever the S field names, so that the instruction after it takes Y, as MULPIX
and XINIT show; Y is then gone (42_streamer_instructions.md R150, 70_reset_and_hazards.md R252; next S is the spec's decision
D22, log 35). -/
def Obligations.GetxaccFeedsTheNextSOperand : Prop :=
  ∀ (d : Reg) (s t : State), exec (.getxacc d) s = .next t →
    ∃ y, t.cog.nexts = some y ∧ (∀ o : Operand, valueS t.cog o = y) ∧
      (∀ (e : Reg) (o : Operand), Writable e t → PlainOperand o t →
        exec (.mulpix e o) t = .next (t.withCog ((t.cog.writeReg e
          (mixLanes (fun _ b => b) (fun _ _ => 0) (t.cog.readReg e) y)).retire false (isImmediate o)))) ∧
      (∀ (e o : Operand) (u : State), exec (.xinit e o) t = .next u → u.str.xsrc = y ∧ u.cog.nexts = none)

/-- AUGS and AUGD complete and keep their 23 bits; a pending SETQ is marked as separated (30_encoding.md R83,
90_conflicts.md C9; PRESUMED and DEDUCED, logs 1, 23 to 25). -/
def Obligations.AugsAndAugdKeepTheirBits : Prop :=
  ∀ (n : AugBits) (s : State),
    exec (.augs n) s = .next (s.withCog { s.cog with
      pc := s.cog.pc + 1, augs := some n, qSplit := s.cog.qpend.isSome }) ∧
    exec (.augd n) s = .next (s.withCog { s.cog with
      pc := s.cog.pc + 1, augd := some n, qSplit := s.cog.qpend.isSome })

/-- An instruction whose 32-bit immediates come from prefix words does what the assembly text with those immediates says,
one word later per prefix word: with one prefix word, beside any other operand, or with two in either order, and with the word
of XSTOP as the last word of an XINIT whose low nine bits are zeros (30_encoding.md R73, R83, R84; DEDUCED, log 27). A held
command is excepted: its prefix words stay pending. -/
def Obligations.AugmentedImmediatesMeanTheText : Prop :=
  let hi := fun v : Word => (v.extractLsb' 9 23 : AugBits)
  let lo := fun v : Word => Operand.imm ((v.extractLsb' 0 9).setWidth 32)
  (∀ (v : Word) (d : Reg) (s : State), s.cog.augs = none →
    execAll [.augs (hi v), .addpix d (lo v)] s = laterBy 1 (exec (.addpix d (.imm v)) s) ∧
    execAll [.augs (hi v), .mulpix d (lo v)] s = laterBy 1 (exec (.mulpix d (.imm v)) s) ∧
    execAll [.augs (hi v), .blnpix d (lo v)] s = laterBy 1 (exec (.blnpix d (.imm v)) s) ∧
    execAll [.augs (hi v), .mixpix d (lo v)] s = laterBy 1 (exec (.mixpix d (.imm v)) s)) ∧
  (∀ (v : Word) (s : State), s.cog.augd = none →
    execAll [.augd (hi v), .setpiv (lo v)] s = laterBy 1 (exec (.setpiv (.imm v)) s) ∧
    execAll [.augd (hi v), .setpix (lo v)] s = laterBy 1 (exec (.setpix (.imm v)) s) ∧
    execAll [.augd (hi v), .setdacs (lo v)] s = laterBy 1 (exec (.setdacs (.imm v)) s) ∧
    execAll [.augd (hi v), .setxfrq (lo v)] s = laterBy 1 (exec (.setxfrq (.imm v)) s) ∧
    execAll [.augd (hi v), .setq (lo v)] s = laterBy 1 (exec (.setq (.imm v)) s)) ∧
  (∀ (v : Word) (o : Operand) (s : State), s.cog.augd = none → s.cog.qpend = none →
    execAll [.augd (hi v), .xinit (lo v) o] s = laterBy 1 (exec (.xinit (.imm v) o) s) ∧
    (lo v = .imm 0 → execAll [.augd (hi v), .xstop] s = laterBy 1 (exec (.xinit (.imm v) (.imm 0)) s)) ∧
    (blocked s = false →
      execAll [.augd (hi v), .xzero (lo v) o] s = laterBy 1 (exec (.xzero (.imm v) o) s) ∧
      execAll [.augd (hi v), .xcont (lo v) o] s = laterBy 1 (exec (.xcont (.imm v) o) s))) ∧
  (∀ (w : Word) (d : Operand) (s : State), s.cog.augs = none → s.cog.qpend = none →
    execAll [.augs (hi w), .xinit d (lo w)] s = laterBy 1 (exec (.xinit d (.imm w)) s) ∧
    (lo w = .imm 0 → execAll [.augs (hi w), .xstop] s = laterBy 1 (exec (.xinit (.imm 0) (.imm w)) s)) ∧
    (blocked s = false →
      execAll [.augs (hi w), .xzero d (lo w)] s = laterBy 1 (exec (.xzero d (.imm w)) s) ∧
      execAll [.augs (hi w), .xcont d (lo w)] s = laterBy 1 (exec (.xcont d (.imm w)) s))) ∧
  (∀ (v w : Word) (s : State) (prefixes : List Instr), s.cog.augd = none → s.cog.augs = none → s.cog.qpend = none →
    prefixes = [.augd (hi v), .augs (hi w)] ∨ prefixes = [.augs (hi w), .augd (hi v)] →
      execAll (prefixes ++ [.xinit (lo v) (lo w)]) s = laterBy 2 (exec (.xinit (.imm v) (.imm w)) s) ∧
      (lo v = .imm 0 → lo w = .imm 0 →
        execAll (prefixes ++ [.xstop]) s = laterBy 2 (exec (.xinit (.imm v) (.imm w)) s)) ∧
      (blocked s = false →
        execAll (prefixes ++ [.xzero (lo v) (lo w)]) s = laterBy 2 (exec (.xzero (.imm v) (.imm w)) s) ∧
        execAll (prefixes ++ [.xcont (lo v) (lo w)]) s = laterBy 2 (exec (.xcont (.imm v) (.imm w)) s)))

/-- A prefix word between a SETQ and its streamer instruction makes the instruction refused (30_encoding.md R83,
90_conflicts.md C9). -/
def Obligations.PrefixWordAfterSetqIsRefused : Prop :=
  ∀ (q d o : Operand) (n : AugBits) (p i : Instr) (s t u : State), PlainOperand d s → PlainOperand o s →
    p = .augs n ∨ p = .augd n → i = .xinit d o ∨ i = .xzero d o ∨ i = .xcont d o ∨ i = .xstop →
    exec (.setq q) s = .next t → exec p t = .next u → exec i u = .refused .setqSplit

/-- A SETQ frequency takes effect when the command starts: at once for XINIT, on leaving the buffer for a buffered command,
until when the running frequency stays (42_streamer_instructions.md R134, 70_reset_and_hazards.md R249). -/
def Obligations.SetqFrequencyActsWhenTheCommandStarts : Prop :=
  (∀ (d o : Operand) (s t : State), exec (.xinit d o) s = .next t →
    t.str.xfrq = s.cog.qpend.getD s.str.xfrq ∧ t.cog.qpend = none) ∧
  (∀ (d o : Operand) (s t : State), s.str.xcnt ≠ 0 → s.str.xbuf = none →
    exec (.xzero d o) s = .next t ∨ exec (.xcont d o) s = .next t →
      t.str.xfrq = s.str.xfrq ∧ ∃ c, t.str.xbuf = some c ∧ c.q = s.cog.qpend) ∧
  (∀ (c : Command) (s t : State), s.str.xbuf = some c → s.str.xcnt = 1 ∨ s.str.xcnt = 0xFFFF →
    rollsOver (ncoStep s.str.xfrq s.str.xphs) = true → streamerClock s = .next t →
      t.str.xfrq = c.q.getD s.str.xfrq)

/-- Every completed instruction but SETQ and the prefix words leaves QPEND absent, every one but GETXACC and the prefix
words leaves NEXTS absent, and every one moves the program counter to the next word; a held instruction does none of this
(10_state.md R24, R39, R43). -/
def Obligations.PendingValuesLastOneInstruction : Prop :=
  ∀ (i : Instr) (s t : State), exec i s = .next t → holds i s = false →
    t.cog.pc = s.cog.pc + 1 ∧
    ((∃ q, i = .setq q) ∨ (∃ n, i = .augs n ∨ i = .augd n) ∨ t.cog.qpend = none) ∧
    ((∃ d, i = .getxacc d) ∨ (∃ n, i = .augs n ∨ i = .augd n) ∨ t.cog.nexts = none)

/-! ### The NCO and the clock step -/

/-- The NCO adds the frequency to the phase without its top bit, modulo 2^32; bit 31 of the result is the rollover; the
modulus never acts in the documented range, and frequency 0 never rolls over (42_streamer_instructions.md R131, R132; the
modulus is the spec's decision D11, log 21). -/
def Obligations.NcoAddsTheFrequencyToTheMaskedPhase : Prop :=
  ∀ f p : Word,
    (ncoStep f p).toNat = (p.toNat % 2 ^ 31 + f.toNat) % 2 ^ 32 ∧
    (f.toNat ≤ 2 ^ 31 → (ncoStep f p).toNat = p.toNat % 2 ^ 31 + f.toNat) ∧
    (rollsOver p = true ↔ 2 ^ 31 ≤ p.toNat) ∧
    rollsOver (ncoStep 0 p) = false

/-- From phase 0 the first rollover comes on clock `ceil(2^31 / f)`, for every frequency of the documented range
(42_streamer_instructions.md R132, 70_reset_and_hazards.md R253). -/
def Obligations.FirstRolloverComesOnTheCeilingClock : Prop :=
  ∀ f : Word, 0 < f.toNat → f.toNat ≤ 2 ^ 31 →
    ∀ k, 0 < k → k ≤ (2 ^ 31 + f.toNat - 1) / f.toNat →
      (rollsOver ((ncoStep f)^[k] 0) = true ↔ k = (2 ^ 31 + f.toNat - 1) / f.toNat)

/-- 42_streamer_instructions.md R149: with XCNT = 0 the clock changes nothing, no channel is overridden, the streamer's pin
bus is zero and the pins show `{OUTB, OUTA}` alone. -/
def Obligations.StoppedStreamerDoesNothing : Prop :=
  ∀ s : State, s.str.xcnt = 0 →
    streamerClock s = .next s ∧ xpin s = 0 ∧ pinOut s = (s.cog.outB ++ s.cog.outA : BitVec 64) ∧
      (s.dac.csOn = false → ∀ n : Fin 4, dacOut s n = s.dac.bg.get n)

/-- A clock without a rollover moves the phase and nothing else; a rollover counts down and moves to the next item; a running
perpetual command moves on without counting (42_streamer_instructions.md R145, R146, R148). -/
def Obligations.ClockMovesThePhaseTheCountAndTheItem : Prop :=
  ∀ s : State, s.str.xcnt ≠ 0 → s.str.runsDds = false →
    let p := s.withStr { s.str with xphs := ncoStep s.str.xfrq s.str.xphs }
    let d := s.withStr { s.str with xphs := ncoStep s.str.xfrq s.str.xphs, xcnt := s.str.xcnt - 1 }
    (rollsOver (ncoStep s.str.xfrq s.str.xphs) = false → streamerClock s = .next p) ∧
    (rollsOver (ncoStep s.str.xfrq s.str.xphs) = true → s.str.xcnt ≠ 1 → s.str.xcnt ≠ 0xFFFF → Advanceable d →
      streamerClock s = .next (advancedState d)) ∧
    (rollsOver (ncoStep s.str.xfrq s.str.xphs) = true → s.str.xcnt = 0xFFFF → s.str.xbuf = none → Advanceable p →
      streamerClock s = .next (advancedState p) ∧ (advancedState p).str.xcnt = 0xFFFF)

/-- On the final rollover, and on any rollover of a perpetual command, the buffered command starts and the buffer is empty,
XZERO zeroing the phase and XCONT keeping the new one; with nothing buffered the final rollover stops the streamer
(42_streamer_instructions.md R145, R147, R148). -/
def Obligations.FinalRolloverStartsTheBufferedCommand : Prop :=
  ∀ s : State, rollsOver (ncoStep s.str.xfrq s.str.xphs) = true → s.str.runsDds = false →
    let p := ncoStep s.str.xfrq s.str.xphs
    (s.str.xcnt = 1 → s.str.xbuf = none →
      streamerClock s = .next (s.withStr { s.str with xphs := p, xcnt := 0 })) ∧
    (∀ c, s.str.xbuf = some c → s.str.xcnt = 1 ∨ s.str.xcnt = 0xFFFF →
      let u := startedState c (s.withStr { s.str with xphs := p, xbuf := none })
      Startable c (s.withStr { s.str with xphs := p, xbuf := none }) →
        streamerClock s = .next u ∧ u.str.xbuf = none ∧ u.str.xcnt = c.count ∧
          u.str.xphs = if c.kind = .cont then p else 0)

/-- At one rollover per clock an immediate command of count N, with or without lookup, presents its items one per clock, the
last value repeating, and stops on its N-th rollover. The premise on `b` holds of a mode without lookup, and of a lookup mode it
says that the words at its base exist (42_streamer_instructions.md R146; 43_streamer_modes.md R189 to R192; the reading is the
spec's decisions D17, D24, D25, logs 31, 33). -/
def Obligations.ImmediateCommandPresentsItsItemsInTurn : Prop :=
  ∀ (l : Layout) (s : State) (k : Nat), s.str.layout = some l → l.fifo = false →
    s.str.xfrq = 0x80000000 → s.str.xbuf = none → s.str.xidx = 0 → s.str.xcnt ≠ 0 → s.str.xcnt ≠ 0xFFFF →
    (∀ b v, lutBase (modeOf s.str.xcmd) s.str.xcmd s.str.xsrc = some b → v < 2 ^ l.w → 32 * b + v < s.par.lutSize) →
    k ≤ s.str.xcnt.toNat →
      ∃ t, runClocks k s = .next t ∧ t.str.xcnt.toNat = s.str.xcnt.toNat - k ∧
        t.str.xcmd = s.str.xcmd ∧ t.str.xsrc = s.str.xsrc ∧ t.str.xdat = s.str.xdat ∧ t.lut = s.lut ∧ t.fifo = s.fifo ∧
        (k < s.str.xcnt.toNat →
          t.str.value = dataField s.str.xdat l.w (l.hasA && aBit s.str.xcmd) (min k (32 / l.w - 1)))

/-- At one rollover per clock a command of count N that reads the FIFO, with or without lookup, has after k clocks read, beside
the chunk of its start, one chunk for each whole chunk of values before its k-th item, and none on its final rollover; it
presents value `k mod n` of the chunk read last. The premise on `b` holds of a mode without lookup, and of a lookup mode it says
that the words at its base exist (42_streamer_instructions.md R146; 43_streamer_modes.md R188, R190, R194 to R196; the spec's
decisions D17, D24, logs 31, 33). -/
def Obligations.FifoCommandReadsOneChunkPerItsValues : Prop :=
  ∀ (l : Layout) (s : State) (k : Nat), s.str.layout = some l → l.fifo = true → s.fifo.rdReady = true →
    s.str.xfrq = 0x80000000 → s.str.xbuf = none → s.str.xidx = 0 → s.str.xcnt ≠ 0 → s.str.xcnt ≠ 0xFFFF →
    (∀ b v, lutBase (modeOf s.str.xcmd) s.str.xcmd s.str.xsrc = some b → v < 2 ^ l.w → 32 * b + v < s.par.lutSize) →
    k ≤ s.str.xcnt.toNat →
      ∃ t, runClocks k s = .next t ∧ t.str.xcnt.toNat = s.str.xcnt.toNat - k ∧
        t.str.xcmd = s.str.xcmd ∧ t.str.xsrc = s.str.xsrc ∧ t.lut = s.lut ∧
        t.fifo = s.fifo.consume (min k (s.str.xcnt.toNat - 1) / l.values * (l.chunk / 8)) ∧
        (k < s.str.xcnt.toNat →
          t.str.value = dataField t.str.xdat l.w (l.hasA && aBit s.str.xcmd) (k % l.values) ∧
          t.str.xdat =
            if k < l.values then s.str.xdat
            else s.fifo.valueAt s.par.hubOrder (s.fifo.rdPos + (k / l.values - 1) * (l.chunk / 8)) (l.chunk / 8))

/-! ### The command word and the data -/

/-- Every command word selects the row of the mode table that its Mode and Misc fields name, the 23 combinations with no row
being undefined and no others; and every row of a mode the spec explains has its value width, chunk width, source and `%a`, the
other rows none (43_streamer_modes.md R171 to R179, R188, R193, R198). A shape is `w`, `n`, `m` of `n-DACm`, and whether the row
has `%a`; a layout is `w`, the chunk width, whether it reads the FIFO, and `%a`. -/
def Obligations.UndefinedModesAreTheTwentyThree : Prop :=
  ∀ x : BitVec 16,
    let one : List Shape := List.replicate 16 ⟨1, 1, 1, true⟩
    let two : List Shape := (List.replicate 4
      [⟨2, 2, 1, true⟩, ⟨2, 2, 1, true⟩, ⟨2, 1, 2, true⟩, ⟨2, 1, 2, true⟩]).flatten
    let four : List Shape :=
      [⟨4, 4, 1, true⟩, ⟨4, 4, 1, true⟩, ⟨4, 2, 2, true⟩, ⟨4, 2, 2, true⟩, ⟨4, 1, 4, true⟩, ⟨4, 1, 4, true⟩,
        ⟨8, 4, 2, false⟩, ⟨8, 2, 4, false⟩,
        ⟨4, 4, 1, true⟩, ⟨4, 4, 1, true⟩, ⟨4, 2, 2, true⟩, ⟨4, 2, 2, true⟩, ⟨4, 1, 4, true⟩, ⟨4, 1, 4, true⟩,
        ⟨8, 1, 8, false⟩, ⟨16, 4, 4, false⟩]
    let sixteen : Shape := ⟨16, 2, 8, false⟩
    let thirtyTwo : Shape := ⟨32, 4, 8, false⟩
    let dds : Mode := .dds (x.getLsbD 7)
    let seven : List Mode := [.immPins sixteen, .immPins thirtyTwo, .fifoLut 1 true, .fifoLut 1 true,
      .fifoLut 2 true, .fifoLut 2 true, .fifoLut 4 true, .fifoLut 4 true, .fifoLut 8 false]
    let eleven : List Mode := [.fifoPins sixteen, .fifoPins thirtyTwo,
      .fifoRgb .luma8, .fifoRgb .rgbi8, .fifoRgb .rgb8, .fifoRgb .rgb16, .fifoRgb .rgb24]
    let fifteen : List Mode := [.pinsIn sixteen, .pinsIn thirtyTwo,
      .adcIn .oneAdc, .adcIn .oneAdcPins, .adcIn .twoAdc, .adcIn .twoAdcPins, .adcIn .fourAdc, dds,
      .undefined, .undefined, .undefined, .undefined, .undefined, .undefined, .undefined, dds]
    let rows : List (List Mode) :=
      [List.replicate 16 (.immLut 1), List.replicate 16 (.immLut 2), List.replicate 16 (.immLut 4),
        List.replicate 16 (.immLut 8), one.map .immPins, two.map .immPins, four.map .immPins, seven,
        one.map .fifoPins, two.map .fifoPins, four.map .fifoPins, eleven,
        one.map .pinsIn, two.map .pinsIn, four.map .pinsIn, fifteen]
    (rows[x.toNat / 2 ^ 12]?.map fun row => (row[x.toNat % 2 ^ 4]?).getD .undefined) = some (modeOf x) ∧
    (modeOf x = .undefined ↔
      (modeField x = 7 ∧ 9 ≤ miscField x) ∨ (modeField x = 11 ∧ 7 ≤ miscField x) ∨
        (modeField x = 15 ∧ 8 ≤ miscField x ∧ miscField x ≤ 14)) ∧
    ((modeOf x).layout = none ↔
      (modeField x = 7 ∧ 9 ≤ miscField x) ∨ (modeField x = 11 ∧ 3 ≤ miscField x) ∨ 12 ≤ modeField x) ∧
    (∀ w, modeOf x = .immLut w → (modeOf x).layout = some ⟨w, 32, false, false⟩) ∧
    (∀ sh, modeOf x = .immPins sh → (modeOf x).layout = some ⟨sh.w, 32, false, sh.hasA⟩) ∧
    (∀ w a, modeOf x = .fifoLut w a → (modeOf x).layout = some ⟨w, 32, true, a⟩) ∧
    (∀ sh, modeOf x = .fifoPins sh →
      (modeOf x).layout = some ⟨sh.w, if sh.w = 32 then 32 else if sh.w = 16 then 16 else 8, true, sh.hasA⟩) ∧
    (modeOf x = .fifoRgb .luma8 → (modeOf x).layout = some ⟨8, 8, true, false⟩)

/-- A start with a count of 0 is never refused; with another count it is refused exactly for an undefined mode, a mode whose
explanation is lost, a FIFO that is not ready, and a first lookup word that does not exist (42_streamer_instructions.md R138;
43_streamer_modes.md R176, R190, R198; 20_memory.md R55; the spec's decisions D15, D17, D20, D21, logs 33, 37). -/
def Obligations.StartIsRefusedExactlyWhereTheSpecRefuses : Prop :=
  ∀ (c : Command) (s : State),
    (Startable c s → start c s = .next (startedState c s)) ∧
    (c.count ≠ 0 → modeOf (c.d.extractLsb' 16 16) = .undefined → start c s = .refused .undefinedStreamerMode) ∧
    (c.count ≠ 0 → modeOf (c.d.extractLsb' 16 16) ≠ .undefined → (modeOf (c.d.extractLsb' 16 16)).layout = none →
      start c s = .refused .streamerModeNotSpecified) ∧
    (∀ l, c.count ≠ 0 → (modeOf (c.d.extractLsb' 16 16)).layout = some l → l.fifo = true → s.fifo.rdReady = false →
      start c s = .refused .fifoNotReady) ∧
    (∀ l a, c.count ≠ 0 → (modeOf (c.d.extractLsb' 16 16)).layout = some l → (l.fifo = true → s.fifo.rdReady = true) →
      (startedState c s).str.lutTarget = some a → s.par.lutSize ≤ a →
      start c s = .refused .lookupOutOfRange)

/-- The lookup address is 32 times the base field plus the value, the base from D[19:16] or from S[3:0], and its word goes to
the four channels (43_streamer_modes.md R190, R191, R194). -/
def Obligations.LookupModesOutputTheAddressedWord : Prop :=
  ∀ (s : State) (w : Nat) (a : Bool), modeOf s.str.xcmd = .immLut w ∨ modeOf s.str.xcmd = .fifoLut w a →
    let b := if modeOf s.str.xcmd = .immLut w then s.str.xcmd.toNat % 16 else s.str.xsrc.toNat % 16
    s.str.lutTarget = some (32 * b + s.str.value.toNat) ∧
      (xout s).word = Bank.read s.lut (32 * b + s.str.value.toNat)

/-- The `k`-th value of a chunk: bottom first, or with `%a` top first within each byte, the bytes rising and the bits of a
value in their own order (43_streamer_modes.md R186; the spec's decision D14, log 30). -/
def Obligations.DataFieldTakesValuesInOrder : Prop :=
  ∀ (data : Word) (e k : Nat), e ≤ 5 → (k + 1) * 2 ^ e ≤ 32 →
    (∀ j, j < 32 → (dataField data (2 ^ e) false k).getLsbD j = (decide (j < 2 ^ e) && data.getLsbD (k * 2 ^ e + j))) ∧
    (8 ≤ 2 ^ e → dataField data (2 ^ e) true k = dataField data (2 ^ e) false k) ∧
    (∀ byte j, e ≤ 2 → j < 8 / 2 ^ e → k = byte * (8 / 2 ^ e) + j →
      dataField data (2 ^ e) true k = dataField data (2 ^ e) false (byte * (8 / 2 ^ e) + (8 / 2 ^ e - 1 - j)))

/-- `Chan(n, m, v)`: field `j` of `v` fills channel `j` by repetition, the other channels are zero; and the streamer's channels in
an Immediate or RDFAST Pins/DACs mode are `Chan` of the row's `n-DACm` and the presented value (43_streamer_modes.md R181, R192,
R195). -/
def Obligations.ChannelsRepeatTheirFields : Prop :=
  (∀ (e n : Nat) (v : Word), e ≤ 3 → n ≤ 4 →
    ∀ (j : Fin 4) (i : Nat), i < 8 →
      ((chan n (2 ^ e) v).get j).getLsbD i =
        (decide (j.val < n) && v.getLsbD (2 ^ e * j.val + i % 2 ^ e))) ∧
  (∀ (s : State) (sh : Shape), modeOf s.str.xcmd = .immPins sh ∨ modeOf s.str.xcmd = .fifoPins sh →
    xout s = chan sh.n sh.m s.str.value)

/-- LUMA8: the pixel on the channels of its colour, orange halving its green (43_streamer_modes.md R196, R197). Rows `%100`
to `%111` are PRESUMED (log 22). -/
def Obligations.LumaPixelsAreColoured : Prop :=
  ∀ s : State, modeOf s.str.xcmd = .fifoRgb .luma8 →
    let p : Byte := (s.str.value).setWidth 8
    ([ [p, BitVec.ofNat 8 (p.toNat / 2), 0, 0], [0, 0, p, 0], [0, p, 0, 0], [0, p, p, 0],
       [p, 0, 0, 0], [p, 0, p, 0], [p, p, 0, 0], [p, p, p, 0] ] : List (List Byte))[s.str.xsrc.toNat % 8]? =
      some [(xout s).c3, (xout s).c2, (xout s).c1, (xout s).c0]

/-- The FIFO delivers and takes the bytes of a word or long in `HUB_ORDER`: the least significant first in the usual order, which
is the one at reset, the most significant first in the other; four RFBYTEs give the bytes of one RFLONG
(20_memory.md R55, R57; the usual order is PRESUMED, log 10). -/
def Obligations.FifoIsLittleEndian : Prop :=
  State.reset.par.hubOrder = .little ∧
  ∀ (f : Fifo) (order : HubOrder) (i n : Nat) (v : Word),
    f.value order n = f.valueAt order f.rdPos n ∧
    f.valueAt order i 1 = (f.byte i).setWidth 32 ∧
    f.valueAt .little i 2 = (f.byte (i + 1) ++ f.byte i : BitVec 16).setWidth 32 ∧
    f.valueAt .little i 4 = pack (f.byte (i + 3)) (f.byte (i + 2)) (f.byte (i + 1)) (f.byte i) ∧
    f.valueAt .big i 2 = (f.byte i ++ f.byte (i + 1) : BitVec 16).setWidth 32 ∧
    f.valueAt .big i 4 = pack (f.byte i) (f.byte (i + 1)) (f.byte (i + 2)) (f.byte (i + 3)) ∧
    (f.write order 1 v).wr = f.wr ++ [byteAt v 0] ∧
    (f.write .little 2 v).wr = f.wr ++ [byteAt v 0, byteAt v 1] ∧
    (f.write .little 4 v).wr = f.wr ++ [byteAt v 0, byteAt v 1, byteAt v 2, byteAt v 3] ∧
    (f.write .big 2 v).wr = f.wr ++ [byteAt v 1, byteAt v 0] ∧
    (f.write .big 4 v).wr = f.wr ++ [byteAt v 3, byteAt v 2, byteAt v 1, byteAt v 0]

/-! ### Pins -/

/-- `%ppp` selects the pin group in every mode, bit `i` of an output transfer goes to pin `(8 ppp + i) mod 64` (43_streamer_modes.md
R184, where the sentence on bits is the spec's own derivation), and bit `i` of an input transfer comes from that pin (R183). -/
def Obligations.PinGroupsWrapAround : Prop :=
  (∀ x : BitVec 16, pinBase x / 8 = pppField x) ∧
  (∀ (ppp i : Nat) (pv : Word), ppp < 8 → i < 32 →
    (placePins (8 * ppp) pv).getLsbD ((8 * ppp + i) % 64) = pv.getLsbD i) ∧
  (∀ (ppp i : Nat) (pins : BitVec 64), ppp < 8 → i < 32 →
    (samplePins (8 * ppp) 32 pins).getLsbD i = pins.getLsbD ((8 * ppp + i) % 64))

/-- The extra pin bits of the narrow modes continue the pin number below `%ppp` (43_streamer_modes.md R185; the spec's decision
D13, log 30), and an input sample takes bit `i` from pin `(base + i) mod 64` (R183). -/
def Obligations.NarrowModesResolveTheirPins : Prop :=
  (∀ (x : BitVec 16) (sh : Shape),
    modeOf x = .immPins sh ∨ modeOf x = .fifoPins sh ∨ modeOf x = .pinsIn sh →
      (sh.w = 1 → pinBase x = x.toNat / 2 % 64) ∧
      (sh.w = 2 → pinBase x = 2 * (x.toNat / 4 % 32)) ∧
      (sh.w = 4 → pinBase x = 4 * (x.toNat / 8 % 16)) ∧
      (8 ≤ sh.w → pinBase x = 8 * (x.toNat / 16 % 8))) ∧
  (∀ (base n i : Nat) (pins : BitVec 64), base < 64 → n ≤ 32 → i < 32 →
    (samplePins base n pins).getLsbD i = (decide (i < n) && pins.getLsbD ((base + i) % 64)))

/-- The pins show `{OUTB, OUTA}` or-ed with the streamer's value on its pin group, when `%e` enables it; that value is the
presented value of `w` bits in a Pins/DACs mode, the lookup word in a lookup mode, and the 32-bit output word
`{X3, X2, X1, X0}` in LUMA8 (43_streamer_modes.md R182, R191, R192, R194 to R196). -/
def Obligations.PinOutputIsTheOrOfCogAndStreamer : Prop :=
  ∀ s : State,
    (∀ p, p < 64 →
      ((pinOut s).getLsbD p = true ↔
        (s.cog.outB ++ s.cog.outA : BitVec 64).getLsbD p = true ∨
        (s.str.xcnt ≠ 0 ∧ s.str.outputs = true ∧ eBit s.str.xcmd = true ∧
          ∃ i, i < 32 ∧ (pinBase s.str.xcmd + i) % 64 = p ∧ (pinValue s).getLsbD i = true))) ∧
    (∀ sh, modeOf s.str.xcmd = .immPins sh ∨ modeOf s.str.xcmd = .fifoPins sh →
      pinValue s = s.str.value ∧ (pinValue s).toNat < 2 ^ sh.w) ∧
    (∀ b, lutBase (modeOf s.str.xcmd) s.str.xcmd s.str.xsrc = some b →
      pinValue s = Bank.read s.lut (32 * b + s.str.value.toNat)) ∧
    (modeOf s.str.xcmd = .fifoRgb .luma8 → pinValue s = pack (xout s).c3 (xout s).c2 (xout s).c1 0)

/-! ### Frames, refusals, faults -/

/-- An instruction with an operand that names no general register is refused: a special-function register, or a number at or
above `NREG`; and so is one that would write a register that holds program text (10_state.md R21, 20_memory.md R50, R66; the
spec's decisions D4, D19; that a number at or above `NREG` is refused is DEDUCED, log 7). -/
def Obligations.OperandRefusals : Prop :=
  (∀ (i : Instr) (s : State), usesOutside s.par i = true → exec i s = .refused .notGeneralRegister) ∧
  (∀ (i : Instr) (d : Reg) (s : State), usesOutside s.par i = false → destination i = some d → d ∈ s.prog.regs →
    exec i s = .refused .writeToProgramText)

/-- No instruction raises a fault, and none is refused for a reason of the fetch (60_exceptions.md R220, R221). A step faults
only on a word of program text that is listed in part, which is the model's own (DESIGN CHOICE, log 5). -/
def Obligations.NoInstructionRaisesAnException : Prop :=
  (∀ (i : Instr) (s : State) (f : Fault), exec i s ≠ .fault f) ∧
  (∀ (i : Instr) (s : State) (r : Refusal), exec i s = .refused r →
    r ≠ .conditionNotModelled ∧ r ≠ .notAnInstruction ∧ ∀ m, r ≠ .notModelled m) ∧
  (∀ (s : State) (f : Fault), step s = .fault f →
    s.sched.due = 0 ∧ 0 < (Memory.readRun s.prog.text (4 * s.cog.pc) 4).length ∧
      (Memory.readRun s.prog.text (4 * s.cog.pc) 4).length < 4)

/-- The frame of every instruction: registers other than its destination, the pin registers, every byte of program text, every
lookup-RAM word and the written FIFO stream stay (10_state.md R22, R23; 20_memory.md R59). -/
def Obligations.InstructionsLeaveOtherRegistersAndMemoryAlone : Prop :=
  ∀ (i : Instr) (s t : State), exec i s = .next t →
    (∀ n : Reg, destination i ≠ some n → t.cog.readReg n = s.cog.readReg n) ∧
    t.cog.outA = s.cog.outA ∧ t.cog.outB = s.cog.outB ∧ t.cog.inA = s.cog.inA ∧ t.cog.inB = s.cog.inB ∧
    (∀ a, Memory.read t.prog.text a = Memory.read s.prog.text a) ∧ t.prog.regs = s.prog.regs ∧
    (∀ a, Bank.read t.lut a = Bank.read s.lut a) ∧
    t.fifo.rd = s.fifo.rd ∧ t.fifo.wr = s.fifo.wr ∧ s.fifo.rdPos ≤ t.fifo.rdPos

/-- Each unit's control state has its own writers: V and M the two set-up instructions, DACBG SETDACS, each of XFRQ, XPHS, XCNT,
XCMD, XSRC, XIDX, XDAT and XBUF the streamer's own instructions, the FIFO's position only a command that starts
(10_state.md R26 to R37, R41); and no instruction changes a parameter (00_scope.md R6). -/
def Obligations.UnitsAreWrittenByTheirOwnInstructionsOnly : Prop :=
  ∀ (i : Instr) (s t : State), exec i s = .next t →
    (t.mixer.v = s.mixer.v ∨ ∃ o, i = .setpiv o) ∧
    (t.mixer.m = s.mixer.m ∨ ∃ o, i = .setpix o) ∧
    (t.dac = s.dac ∨ ∃ o, i = .setdacs o) ∧
    (t.str.xfrq = s.str.xfrq ∨ (∃ o, i = .setxfrq o) ∨ i = .xstop ∨
      ∃ d o, i = .xinit d o ∨ i = .xzero d o ∨ i = .xcont d o) ∧
    t.par = s.par ∧
    ((t.str.xcnt = s.str.xcnt ∧ t.str.xphs = s.str.xphs ∧ t.str.xcmd = s.str.xcmd ∧ t.str.xsrc = s.str.xsrc ∧
        t.str.xidx = s.str.xidx ∧ t.str.xdat = s.str.xdat ∧ t.str.xbuf = s.str.xbuf ∧ t.fifo = s.fifo) ∨
      i = .xstop ∨ ∃ d o, i = .xinit d o ∨ i = .xzero d o ∨ i = .xcont d o) ∧
    ((t.str.xacx = s.str.xacx ∧ t.str.xacy = s.str.xacy) ∨ ∃ d, i = .getxacc d)

/-- A system clock changes nothing of the cog but the pin inputs, nothing of the mixer, the DAC background, the lookup RAM or
the program text (10_state.md R20; 20_memory.md R52, R63), and no parameter. The clause that it leaves XACX and XACY as they were
is the MODEL's DESIGN CHOICE of log 19 (unsafe there) and no rule of the spec: 10_state.md R41 and U9 leave them undetermined
between two GETXACC. -/
def Obligations.ClocksLeaveTheCogAlone : Prop :=
  ∀ s t : State, systemClock s = .next t →
    (∃ a b, t.cog = { s.cog with inA := a, inB := b }) ∧ t.mixer = s.mixer ∧ t.dac = s.dac ∧ t.lut = s.lut ∧
      t.prog = s.prog ∧ t.fifo.wr = s.fifo.wr ∧ t.fifo.rd = s.fifo.rd ∧ t.par = s.par ∧
      t.str.xacx = s.str.xacx ∧ t.str.xacy = s.str.xacy
end

