-- ==== Sys2Proof/Laws/Decode.lean ====
section
/-! SUPPORT. What a word put together from its fields shows to the decoder: its fields, its operands, and when a row of the
opcode map does not match. -/

namespace Sys2Proof

/-- A row does not match a word that differs from its pattern in one bit of its mask. -/
theorem Op.matchesWord_false {w : Word} {op : Op} (k : Nat) (hm : op.mask.getLsbD k = true)
    (hb : w.getLsbD k = !op.pattern.getLsbD k) : op.matchesWord w = false := by
  simp only [Op.matchesWord, beq_eq_false_iff_ne, ne_eq]
  intro h
  have := congrArg (fun v => v.getLsbD k) h
  simp only [BitVec.getLsbD_and, hm, hb, Bool.and_true] at this
  cases op.pattern.getLsbD k <;> simp at this

section fields

variable (op : BitVec 7) (c z i : BitVec 1) (d s : BitVec 9)

theorem fieldsWord_opcode_bit {k : Nat} (h : k < 7) : (fieldsWord op c z i d s).getLsbD (21 + k) = op.getLsbD k := by
  simp only [fieldsWord, BitVec.getLsbD_append]
  interval_cases k <;> simp

theorem fieldsWord_bit20 : (fieldsWord op c z i d s).getLsbD 20 = c.getLsbD 0 := by
  simp only [fieldsWord, BitVec.getLsbD_append]
  simp

theorem fieldsWord_bit19 : (fieldsWord op c z i d s).getLsbD 19 = z.getLsbD 0 := by
  simp only [fieldsWord, BitVec.getLsbD_append]
  simp

theorem fieldsWord_bit18 : (fieldsWord op c z i d s).getLsbD 18 = i.getLsbD 0 := by
  simp only [fieldsWord, BitVec.getLsbD_append]
  simp

theorem fieldD_fieldsWord : fieldD (fieldsWord op c z i d s) = d := by
  apply BitVec.eq_of_getLsbD_eq
  intro k hk
  simp only [fieldsWord, fieldD, BitVec.getLsbD_append, BitVec.getLsbD_extractLsb']
  interval_cases k <;> simp

theorem fieldS_fieldsWord : fieldS (fieldsWord op c z i d s) = s := by
  apply BitVec.eq_of_getLsbD_eq
  intro k hk
  simp only [fieldsWord, fieldS, BitVec.getLsbD_append, BitVec.getLsbD_extractLsb']
  interval_cases k <;> simp

/-- The mask of the pixel rows leaves the opcode and the two bits below it. -/
theorem fieldsWord_and_dsMask :
    fieldsWord op c z i d s &&& 0x0FF80000 = (0#4 ++ op ++ c ++ z ++ 0#1 ++ 0#9 ++ 0#9 : BitVec 32) := by
  apply BitVec.eq_of_getLsbD_eq
  intro k hk
  simp only [fieldsWord, BitVec.getLsbD_append, BitVec.getLsbD_and]
  interval_cases k <;> simp

/-- The mask of XINIT, XZERO and XCONT leaves the opcode and bit 20. -/
theorem fieldsWord_and_ldsMask :
    fieldsWord op c z i d s &&& 0x0FF00000 = (0#4 ++ op ++ c ++ 0#1 ++ 0#1 ++ 0#9 ++ 0#9 : BitVec 32) := by
  apply BitVec.eq_of_getLsbD_eq
  intro k hk
  simp only [fieldsWord, BitVec.getLsbD_append, BitVec.getLsbD_and]
  interval_cases k <;> simp

/-- The mask of the one-operand rows leaves the opcode, bits 20:19 and the S field. -/
theorem fieldsWord_and_d1Mask :
    fieldsWord op c z i d s &&& 0x0FF801FF = (0#4 ++ op ++ c ++ z ++ 0#1 ++ 0#9 ++ s : BitVec 32) := by
  apply BitVec.eq_of_getLsbD_eq
  intro k hk
  simp only [fieldsWord, BitVec.getLsbD_append, BitVec.getLsbD_and]
  interval_cases k <;> simp

end fields

/-- The usual immediate width is that of the D and S fields. -/
@[simp] theorem Instr.wellFormed_eq (i : Instr) : i.wellFormed = i.fitsWord 9 := rfl

/-- A prefix word's bits and an immediate's bits make up 32 bits (30_encoding.md R83). -/
theorem augBits_add_immBits : 23 + Config.usual.immBits = 32 := rfl

/-- The operand comes back from its selector bit and its field. -/
theorem operandOf_selector_field (o : Operand) (h : o.fits 9 = true) :
    operandOf (o.selector.getLsbD 0) o.field = o := by
  cases o with
  | reg n => simp [operandOf, Operand.selector, Operand.field]
  | imm v =>
    simp only [Operand.fits, decide_eq_true_eq] at h
    have e : operandOf ((Operand.imm v).selector.getLsbD 0) (Operand.imm v).field =
        .imm ((v.setWidth 9).setWidth 32) := by
      simp [operandOf, Operand.selector, Operand.field]
    rw [e]
    congr 1
    apply BitVec.eq_of_toNat_eq
    simp only [BitVec.toNat_setWidth]
    omega

/-- The bytes of a word make up the word. -/
theorem leWord_leBytes (w : Word) : Machine.leWord (Machine.leBytes 4 w) = w := by
  apply BitVec.eq_of_getLsbD_eq
  intro k hk
  simp only [Machine.leWord, Machine.leBytes, BitVec.getLsbD_or, BitVec.getLsbD_shiftLeft, BitVec.getLsbD_setWidth,
    BitVec.getLsbD_ushiftRight]
  interval_cases k <;> simp

end Sys2Proof
end

