-- ==== Sys2Proof/Laws/State.lean ====
section
/-! SUPPORT. One lemma per field per update of the state's parts, each true by `rfl`. -/

namespace Sys2Proof.Machine

/-! ### `State.withCog` -/

@[simp] theorem State.withCog_cog (s : State) (p : Cog) : (s.withCog p).cog = p := rfl
@[simp] theorem State.withCog_mixer (s : State) (p : Cog) : (s.withCog p).mixer = s.mixer := rfl
@[simp] theorem State.withCog_dac (s : State) (p : Cog) : (s.withCog p).dac = s.dac := rfl
@[simp] theorem State.withCog_str (s : State) (p : Cog) : (s.withCog p).str = s.str := rfl
@[simp] theorem State.withCog_lut (s : State) (p : Cog) : (s.withCog p).lut = s.lut := rfl
@[simp] theorem State.withCog_fifo (s : State) (p : Cog) : (s.withCog p).fifo = s.fifo := rfl
@[simp] theorem State.withCog_prog (s : State) (p : Cog) : (s.withCog p).prog = s.prog := rfl
@[simp] theorem State.withCog_sched (s : State) (p : Cog) : (s.withCog p).sched = s.sched := rfl
@[simp] theorem State.withCog_par (s : State) (p : Cog) : (s.withCog p).par = s.par := rfl

/-! ### `State.withMixer` -/

@[simp] theorem State.withMixer_cog (s : State) (p : Mixer) : (s.withMixer p).cog = s.cog := rfl
@[simp] theorem State.withMixer_mixer (s : State) (p : Mixer) : (s.withMixer p).mixer = p := rfl
@[simp] theorem State.withMixer_dac (s : State) (p : Mixer) : (s.withMixer p).dac = s.dac := rfl
@[simp] theorem State.withMixer_str (s : State) (p : Mixer) : (s.withMixer p).str = s.str := rfl
@[simp] theorem State.withMixer_lut (s : State) (p : Mixer) : (s.withMixer p).lut = s.lut := rfl
@[simp] theorem State.withMixer_fifo (s : State) (p : Mixer) : (s.withMixer p).fifo = s.fifo := rfl
@[simp] theorem State.withMixer_prog (s : State) (p : Mixer) : (s.withMixer p).prog = s.prog := rfl
@[simp] theorem State.withMixer_sched (s : State) (p : Mixer) : (s.withMixer p).sched = s.sched := rfl
@[simp] theorem State.withMixer_par (s : State) (p : Mixer) : (s.withMixer p).par = s.par := rfl

/-! ### `State.withDac` -/

@[simp] theorem State.withDac_cog (s : State) (p : Dac) : (s.withDac p).cog = s.cog := rfl
@[simp] theorem State.withDac_mixer (s : State) (p : Dac) : (s.withDac p).mixer = s.mixer := rfl
@[simp] theorem State.withDac_dac (s : State) (p : Dac) : (s.withDac p).dac = p := rfl
@[simp] theorem State.withDac_str (s : State) (p : Dac) : (s.withDac p).str = s.str := rfl
@[simp] theorem State.withDac_lut (s : State) (p : Dac) : (s.withDac p).lut = s.lut := rfl
@[simp] theorem State.withDac_fifo (s : State) (p : Dac) : (s.withDac p).fifo = s.fifo := rfl
@[simp] theorem State.withDac_prog (s : State) (p : Dac) : (s.withDac p).prog = s.prog := rfl
@[simp] theorem State.withDac_sched (s : State) (p : Dac) : (s.withDac p).sched = s.sched := rfl
@[simp] theorem State.withDac_par (s : State) (p : Dac) : (s.withDac p).par = s.par := rfl

/-! ### `State.withStr` -/

@[simp] theorem State.withStr_cog (s : State) (p : Streamer) : (s.withStr p).cog = s.cog := rfl
@[simp] theorem State.withStr_mixer (s : State) (p : Streamer) : (s.withStr p).mixer = s.mixer := rfl
@[simp] theorem State.withStr_dac (s : State) (p : Streamer) : (s.withStr p).dac = s.dac := rfl
@[simp] theorem State.withStr_str (s : State) (p : Streamer) : (s.withStr p).str = p := rfl
@[simp] theorem State.withStr_lut (s : State) (p : Streamer) : (s.withStr p).lut = s.lut := rfl
@[simp] theorem State.withStr_fifo (s : State) (p : Streamer) : (s.withStr p).fifo = s.fifo := rfl
@[simp] theorem State.withStr_prog (s : State) (p : Streamer) : (s.withStr p).prog = s.prog := rfl
@[simp] theorem State.withStr_sched (s : State) (p : Streamer) : (s.withStr p).sched = s.sched := rfl
@[simp] theorem State.withStr_par (s : State) (p : Streamer) : (s.withStr p).par = s.par := rfl

/-! ### `State.withFifo` -/

@[simp] theorem State.withFifo_cog (s : State) (p : Fifo) : (s.withFifo p).cog = s.cog := rfl
@[simp] theorem State.withFifo_mixer (s : State) (p : Fifo) : (s.withFifo p).mixer = s.mixer := rfl
@[simp] theorem State.withFifo_dac (s : State) (p : Fifo) : (s.withFifo p).dac = s.dac := rfl
@[simp] theorem State.withFifo_str (s : State) (p : Fifo) : (s.withFifo p).str = s.str := rfl
@[simp] theorem State.withFifo_lut (s : State) (p : Fifo) : (s.withFifo p).lut = s.lut := rfl
@[simp] theorem State.withFifo_fifo (s : State) (p : Fifo) : (s.withFifo p).fifo = p := rfl
@[simp] theorem State.withFifo_prog (s : State) (p : Fifo) : (s.withFifo p).prog = s.prog := rfl
@[simp] theorem State.withFifo_sched (s : State) (p : Fifo) : (s.withFifo p).sched = s.sched := rfl
@[simp] theorem State.withFifo_par (s : State) (p : Fifo) : (s.withFifo p).par = s.par := rfl

/-! ### `State.withSched` -/

@[simp] theorem State.withSched_cog (s : State) (p : Sched) : (s.withSched p).cog = s.cog := rfl
@[simp] theorem State.withSched_mixer (s : State) (p : Sched) : (s.withSched p).mixer = s.mixer := rfl
@[simp] theorem State.withSched_dac (s : State) (p : Sched) : (s.withSched p).dac = s.dac := rfl
@[simp] theorem State.withSched_str (s : State) (p : Sched) : (s.withSched p).str = s.str := rfl
@[simp] theorem State.withSched_lut (s : State) (p : Sched) : (s.withSched p).lut = s.lut := rfl
@[simp] theorem State.withSched_fifo (s : State) (p : Sched) : (s.withSched p).fifo = s.fifo := rfl
@[simp] theorem State.withSched_prog (s : State) (p : Sched) : (s.withSched p).prog = s.prog := rfl
@[simp] theorem State.withSched_sched (s : State) (p : Sched) : (s.withSched p).sched = p := rfl
@[simp] theorem State.withSched_par (s : State) (p : Sched) : (s.withSched p).par = s.par := rfl

/-! ### `samplePinInputs` -/

@[simp] theorem samplePinInputs_cog (s : State) : (samplePinInputs s).cog = 
    { s.cog with
      inA := (Config.pinInput s.sched.clocks).extractLsb' 0 32
      inB := (Config.pinInput s.sched.clocks).extractLsb' 32 32 } := rfl
@[simp] theorem samplePinInputs_mixer (s : State) : (samplePinInputs s).mixer = s.mixer := rfl
@[simp] theorem samplePinInputs_dac (s : State) : (samplePinInputs s).dac = s.dac := rfl
@[simp] theorem samplePinInputs_str (s : State) : (samplePinInputs s).str = s.str := rfl
@[simp] theorem samplePinInputs_lut (s : State) : (samplePinInputs s).lut = s.lut := rfl
@[simp] theorem samplePinInputs_fifo (s : State) : (samplePinInputs s).fifo = s.fifo := rfl
@[simp] theorem samplePinInputs_prog (s : State) : (samplePinInputs s).prog = s.prog := rfl
@[simp] theorem samplePinInputs_sched (s : State) : (samplePinInputs s).sched = { s.sched with clocks := s.sched.clocks + 1 } := rfl
@[simp] theorem samplePinInputs_par (s : State) : (samplePinInputs s).par = s.par := rfl

/-! ### `endTurn` -/

@[simp] theorem endTurn_cog (held : Bool) (s : State) : (endTurn held s).cog = s.cog := rfl
@[simp] theorem endTurn_mixer (held : Bool) (s : State) : (endTurn held s).mixer = s.mixer := rfl
@[simp] theorem endTurn_dac (held : Bool) (s : State) : (endTurn held s).dac = s.dac := rfl
@[simp] theorem endTurn_str (held : Bool) (s : State) : (endTurn held s).str = s.str := rfl
@[simp] theorem endTurn_lut (held : Bool) (s : State) : (endTurn held s).lut = s.lut := rfl
@[simp] theorem endTurn_fifo (held : Bool) (s : State) : (endTurn held s).fifo = s.fifo := rfl
@[simp] theorem endTurn_prog (held : Bool) (s : State) : (endTurn held s).prog = s.prog := rfl
@[simp] theorem endTurn_sched (held : Bool) (s : State) : (endTurn held s).sched = 
    { s.sched with
      due := Config.clocksBetween s.sched.turns + (if held then 1 else 0)
      turns := s.sched.turns + 1 } := rfl
@[simp] theorem endTurn_par (held : Bool) (s : State) : (endTurn held s).par = s.par := rfl

/-! ### `drawGoertzel` -/

@[simp] theorem drawGoertzel_cog (s : State) : (drawGoertzel s).cog = s.cog := rfl
@[simp] theorem drawGoertzel_mixer (s : State) : (drawGoertzel s).mixer = s.mixer := rfl
@[simp] theorem drawGoertzel_dac (s : State) : (drawGoertzel s).dac = s.dac := rfl
@[simp] theorem drawGoertzel_str (s : State) : (drawGoertzel s).str = 
    { s.str with
      xacx := Config.goertzelX s.sched.draws % 2 ^ s.par.gaccBits
      xacy := Config.goertzelY s.sched.draws % 2 ^ s.par.gaccBits } := rfl
@[simp] theorem drawGoertzel_lut (s : State) : (drawGoertzel s).lut = s.lut := rfl
@[simp] theorem drawGoertzel_fifo (s : State) : (drawGoertzel s).fifo = s.fifo := rfl
@[simp] theorem drawGoertzel_prog (s : State) : (drawGoertzel s).prog = s.prog := rfl
@[simp] theorem drawGoertzel_sched (s : State) : (drawGoertzel s).sched = { s.sched with draws := s.sched.draws + 1 } := rfl
@[simp] theorem drawGoertzel_par (s : State) : (drawGoertzel s).par = s.par := rfl

/-! ### `readAccumulators` -/

@[simp] theorem readAccumulators_cog (d : Reg) (s : State) : (readAccumulators d s).cog = 
    { (s.cog.writeReg d (BitVec.ofNat 32 s.str.xacx)).retire false false with
      nexts := some (BitVec.ofNat 32 s.str.xacy) } := rfl
@[simp] theorem readAccumulators_mixer (d : Reg) (s : State) : (readAccumulators d s).mixer = s.mixer := rfl
@[simp] theorem readAccumulators_dac (d : Reg) (s : State) : (readAccumulators d s).dac = s.dac := rfl
@[simp] theorem readAccumulators_str (d : Reg) (s : State) : (readAccumulators d s).str = { s.str with xacx := 0, xacy := 0 } := rfl
@[simp] theorem readAccumulators_lut (d : Reg) (s : State) : (readAccumulators d s).lut = s.lut := rfl
@[simp] theorem readAccumulators_fifo (d : Reg) (s : State) : (readAccumulators d s).fifo = s.fifo := rfl
@[simp] theorem readAccumulators_prog (d : Reg) (s : State) : (readAccumulators d s).prog = s.prog := rfl
@[simp] theorem readAccumulators_sched (d : Reg) (s : State) : (readAccumulators d s).sched = s.sched := rfl
@[simp] theorem readAccumulators_par (d : Reg) (s : State) : (readAccumulators d s).par = s.par := rfl

/-! ### `Cog.writeReg` -/

@[simp] theorem Cog.writeReg_pc (c : Cog) (n : Reg) (v : Word) : (c.writeReg n v).pc = c.pc := rfl
@[simp] theorem Cog.writeReg_regs (c : Cog) (n : Reg) (v : Word) : (c.writeReg n v).regs = Bank.write c.regs n.toNat v := rfl
@[simp] theorem Cog.writeReg_outA (c : Cog) (n : Reg) (v : Word) : (c.writeReg n v).outA = c.outA := rfl
@[simp] theorem Cog.writeReg_outB (c : Cog) (n : Reg) (v : Word) : (c.writeReg n v).outB = c.outB := rfl
@[simp] theorem Cog.writeReg_inA (c : Cog) (n : Reg) (v : Word) : (c.writeReg n v).inA = c.inA := rfl
@[simp] theorem Cog.writeReg_inB (c : Cog) (n : Reg) (v : Word) : (c.writeReg n v).inB = c.inB := rfl
@[simp] theorem Cog.writeReg_qpend (c : Cog) (n : Reg) (v : Word) : (c.writeReg n v).qpend = c.qpend := rfl
@[simp] theorem Cog.writeReg_qSplit (c : Cog) (n : Reg) (v : Word) : (c.writeReg n v).qSplit = c.qSplit := rfl
@[simp] theorem Cog.writeReg_nexts (c : Cog) (n : Reg) (v : Word) : (c.writeReg n v).nexts = c.nexts := rfl
@[simp] theorem Cog.writeReg_augs (c : Cog) (n : Reg) (v : Word) : (c.writeReg n v).augs = c.augs := rfl
@[simp] theorem Cog.writeReg_augd (c : Cog) (n : Reg) (v : Word) : (c.writeReg n v).augd = c.augd := rfl

/-! ### `Cog.retire` -/

@[simp] theorem Cog.retire_pc (c : Cog) (immD immS : Bool) : (c.retire immD immS).pc = c.pc + 1 := rfl
@[simp] theorem Cog.retire_regs (c : Cog) (immD immS : Bool) : (c.retire immD immS).regs = c.regs := rfl
@[simp] theorem Cog.retire_outA (c : Cog) (immD immS : Bool) : (c.retire immD immS).outA = c.outA := rfl
@[simp] theorem Cog.retire_outB (c : Cog) (immD immS : Bool) : (c.retire immD immS).outB = c.outB := rfl
@[simp] theorem Cog.retire_inA (c : Cog) (immD immS : Bool) : (c.retire immD immS).inA = c.inA := rfl
@[simp] theorem Cog.retire_inB (c : Cog) (immD immS : Bool) : (c.retire immD immS).inB = c.inB := rfl
@[simp] theorem Cog.retire_qpend (c : Cog) (immD immS : Bool) : (c.retire immD immS).qpend = none := rfl
@[simp] theorem Cog.retire_qSplit (c : Cog) (immD immS : Bool) : (c.retire immD immS).qSplit = false := rfl
@[simp] theorem Cog.retire_nexts (c : Cog) (immD immS : Bool) : (c.retire immD immS).nexts = none := rfl
@[simp] theorem Cog.retire_augs (c : Cog) (immD immS : Bool) : (c.retire immD immS).augs = if immS then none else c.augs := rfl
@[simp] theorem Cog.retire_augd (c : Cog) (immD immS : Bool) : (c.retire immD immS).augd = if immD then none else c.augd := rfl

/-! ### `Cog.passAugment` -/

@[simp] theorem Cog.passAugment_pc (c : Cog) : (c.passAugment).pc = c.pc + 1 := rfl
@[simp] theorem Cog.passAugment_regs (c : Cog) : (c.passAugment).regs = c.regs := rfl
@[simp] theorem Cog.passAugment_outA (c : Cog) : (c.passAugment).outA = c.outA := rfl
@[simp] theorem Cog.passAugment_outB (c : Cog) : (c.passAugment).outB = c.outB := rfl
@[simp] theorem Cog.passAugment_inA (c : Cog) : (c.passAugment).inA = c.inA := rfl
@[simp] theorem Cog.passAugment_inB (c : Cog) : (c.passAugment).inB = c.inB := rfl
@[simp] theorem Cog.passAugment_qpend (c : Cog) : (c.passAugment).qpend = c.qpend := rfl
@[simp] theorem Cog.passAugment_qSplit (c : Cog) : (c.passAugment).qSplit = c.qpend.isSome := rfl
@[simp] theorem Cog.passAugment_nexts (c : Cog) : (c.passAugment).nexts = c.nexts := rfl
@[simp] theorem Cog.passAugment_augs (c : Cog) : (c.passAugment).augs = c.augs := rfl
@[simp] theorem Cog.passAugment_augd (c : Cog) : (c.passAugment).augd = c.augd := rfl

/-! ### `Streamer.begin` -/

@[simp] theorem Streamer.begin_xfrq (x : Streamer) (c : Command) : (x.begin c).xfrq = c.q.getD x.xfrq := rfl
@[simp] theorem Streamer.begin_xphs (x : Streamer) (c : Command) : (x.begin c).xphs = if c.kind = .cont then x.xphs else 0 := rfl
@[simp] theorem Streamer.begin_xcnt (x : Streamer) (c : Command) : (x.begin c).xcnt = c.d.extractLsb' 0 16 := rfl
@[simp] theorem Streamer.begin_xcmd (x : Streamer) (c : Command) : (x.begin c).xcmd = c.d.extractLsb' 16 16 := rfl
@[simp] theorem Streamer.begin_xsrc (x : Streamer) (c : Command) : (x.begin c).xsrc = c.s := rfl
@[simp] theorem Streamer.begin_xidx (x : Streamer) (c : Command) : (x.begin c).xidx = 0 := rfl
@[simp] theorem Streamer.begin_xdat (x : Streamer) (c : Command) : (x.begin c).xdat = x.xdat := rfl
@[simp] theorem Streamer.begin_xbuf (x : Streamer) (c : Command) : (x.begin c).xbuf = x.xbuf := rfl
@[simp] theorem Streamer.begin_xacx (x : Streamer) (c : Command) : (x.begin c).xacx = x.xacx := rfl
@[simp] theorem Streamer.begin_xacy (x : Streamer) (c : Command) : (x.begin c).xacy = x.xacy := rfl

/-! ### `Fifo.consume` -/

@[simp] theorem Fifo.consume_rdReady (f : Fifo) (n : Nat) : (f.consume n).rdReady = f.rdReady := rfl
@[simp] theorem Fifo.consume_rd (f : Fifo) (n : Nat) : (f.consume n).rd = f.rd := rfl
@[simp] theorem Fifo.consume_rdPos (f : Fifo) (n : Nat) : (f.consume n).rdPos = f.rdPos + n := rfl
@[simp] theorem Fifo.consume_wrReady (f : Fifo) (n : Nat) : (f.consume n).wrReady = f.wrReady := rfl
@[simp] theorem Fifo.consume_wr (f : Fifo) (n : Nat) : (f.consume n).wr = f.wr := rfl

/-! ### `Fifo.write` -/

@[simp] theorem Fifo.write_rdReady (f : Fifo) (order : HubOrder) (n : Nat) (v : Word) :
    (f.write order n v).rdReady = f.rdReady := rfl
@[simp] theorem Fifo.write_rd (f : Fifo) (order : HubOrder) (n : Nat) (v : Word) : (f.write order n v).rd = f.rd := rfl
@[simp] theorem Fifo.write_rdPos (f : Fifo) (order : HubOrder) (n : Nat) (v : Word) : (f.write order n v).rdPos = f.rdPos := rfl
@[simp] theorem Fifo.write_wrReady (f : Fifo) (order : HubOrder) (n : Nat) (v : Word) :
    (f.write order n v).wrReady = f.wrReady := rfl
@[simp] theorem Fifo.write_wr (f : Fifo) (order : HubOrder) (n : Nat) (v : Word) :
    (f.write order n v).wr = f.wr ++ orderedBytes order n v := rfl

end Sys2Proof.Machine
end

