-- ==== Sys2Proof/Laws/Ops.lean ====
section
/-! SUPPORT. One lemma per shared operation that says once what it can do when it answers a next state. -/

namespace Sys2Proof.Machine

/-! ### The open parameters -/

/-- A general register is below `NREG`. -/
theorem lt_nreg_of_general {p : Params} {n : Reg} (h : outsideGeneral p n = false) : n.toNat < p.nreg := by
  simp only [outsideGeneral, Bool.or_eq_false_iff, decide_eq_false_iff_not] at h
  omega

@[simp] theorem orderedWord_little (bs : List Byte) : orderedWord .little bs = leWord bs := rfl
@[simp] theorem orderedWord_big (bs : List Byte) : orderedWord .big bs = leWord bs.reverse := rfl
@[simp] theorem orderedBytes_little (n : Nat) (v : Word) : orderedBytes .little n v = leBytes n v := rfl
@[simp] theorem orderedBytes_big (n : Nat) (v : Word) : orderedBytes .big n v = (leBytes n v).reverse := rfl

/-- Reading the FIFO does not change what stands at a place of its stream. -/
@[simp] theorem Fifo.consume_valueAt (f : Fifo) (k : Nat) (order : HubOrder) (i n : Nat) :
    (f.consume k).valueAt order i n = f.valueAt order i n := by
  have h : ∀ m j, Fifo.bytes (f.consume k) j m = Fifo.bytes f j m := by
    intro m
    induction m with
    | zero => exact fun _ => rfl
    | succ m ih => exact fun j => congrArg (f.byte j :: ·) (ih (j + 1))
  simp only [Fifo.valueAt, h]

/-- The drawn accumulators have `GACC_BITS` bits. -/
theorem drawGoertzel_sound (s : State) : AccumulatorsSound (drawGoertzel s) :=
  ⟨Nat.mod_lt _ (Nat.two_pow_pos _), Nat.mod_lt _ (Nat.two_pow_pos _)⟩

/-- A completed operand instruction: its operand is plain, and it did its effect on the completed cog. -/
theorem withOperand_next {o : Operand} {s t : State} {effect : Word → State → State}
    (h : withOperand o s effect = .next t) :
    namesOutside s.par o = false ∧ t = effect (valueD s.cog o) (s.withCog (s.cog.retire (isImmediate o) false)) := by
  unfold withOperand at h
  split at h
  · cases h
  · rename_i hn
    injection h with h
    exact ⟨by simpa using hn, h.symm⟩

/-- A completed pixel operation: its operands are plain, its destination holds no program text, and it wrote the lanes. -/
theorem pixelOp_next {dm sm : Byte → Byte → Byte} {d : Reg} {o : Operand} {s t : State}
    (h : pixelOp dm sm d o s = .next t) :
    outsideGeneral s.par d = false ∧ namesOutside s.par o = false ∧ d ∉ s.prog.regs ∧
      t = s.withCog ((s.cog.writeReg d (mixLanes dm sm (s.cog.readReg d) (valueS s.cog o))).retire false
        (isImmediate o)) := by
  unfold pixelOp at h
  split at h
  · cases h
  · rename_i h1
    split at h
    · cases h
    · rename_i h2
      injection h with h
      simp only [Bool.or_eq_true, not_or, Bool.not_eq_true] at h1
      exact ⟨h1.1, h1.2, by simpa using h2, h.symm⟩

/-- A presented item leaves the state and has an existing lookup address. -/
theorem present_next {s t : State} (h : present s = .next t) :
    t = s ∧ ∀ a, s.str.lutTarget = some a → a < s.par.lutSize := by
  unfold present at h
  split at h
  · rename_i a ha
    split at h
    · rename_i hlt
      injection h with h
      exact ⟨h.symm, fun b hb => by rw [ha] at hb; cases hb; exact hlt⟩
    · cases h
  · rename_i ha
    injection h with h
    exact ⟨h.symm, fun b hb => by rw [ha] at hb; cases hb⟩

/-- A loaded chunk: the FIFO is ready, the data come from it and it is consumed. -/
theorem loadChunk_next {chunk : Nat} {s t : State} (h : loadChunk chunk s = .next t) :
    s.fifo.rdReady = true ∧
      t = (s.withStr { s.str with xdat := s.fifo.value s.par.hubOrder (chunk / 8) }).withFifo (s.fifo.consume (chunk / 8)) ∧
      ∀ a, t.str.lutTarget = some a → a < s.par.lutSize := by
  unfold loadChunk at h
  split at h
  · rename_i hr
    obtain ⟨rfl, ha⟩ := present_next h
    exact ⟨hr, rfl, ha⟩
  · cases h

/-- A first chunk: the mode has a layout, and the data come from S or from the FIFO. -/
theorem loadFirst_next {s t : State} (h : loadFirst s = .next t) :
    ∃ l, s.str.layout = some l ∧ (∀ a, t.str.lutTarget = some a → a < s.par.lutSize) ∧
      ((l.fifo = false ∧ t = s.withStr { s.str with xdat := s.str.xsrc }) ∨
        (l.fifo = true ∧ s.fifo.rdReady = true ∧
          t = (s.withStr { s.str with xdat := s.fifo.value s.par.hubOrder (l.chunk / 8) }).withFifo
            (s.fifo.consume (l.chunk / 8)))) := by
  unfold loadFirst at h
  split at h
  · cases h
  · rename_i l hl
    split at h
    · rename_i hf
      obtain ⟨hr, ht, ha⟩ := loadChunk_next h
      exact ⟨l, hl, ha, .inr ⟨hf, hr, ht⟩⟩
    · rename_i hf
      obtain ⟨rfl, ha⟩ := present_next h
      exact ⟨l, hl, ha, .inl ⟨by simpa using hf, rfl⟩⟩

/-- A started command: the streamer took it, and either its count is 0 or its first data item is loaded. -/
theorem start_next {c : Command} {s t : State} (h : start c s = .next t) :
    ((s.str.begin c).xcnt = 0 ∧ t = s.withStr (s.str.begin c)) ∨
      ((s.str.begin c).xcnt ≠ 0 ∧ loadFirst (s.withStr (s.str.begin c)) = .next t) := by
  unfold start at h
  simp only at h
  split at h
  · rename_i h0
    injection h with h
    exact .inl ⟨h0, h.symm⟩
  · rename_i h0
    exact .inr ⟨h0, h⟩

/-- An advanced command: its index is one higher, and a chunk was read exactly when the index entered a new one. -/
theorem advance_next {s t : State} (h : advance s = .next t) :
    ∃ l, s.str.layout = some l ∧
      ((l.fifo = true ∧ (s.str.xidx + 1) % l.values = 0 ∧
          loadChunk l.chunk (s.withStr { s.str with xidx := s.str.xidx + 1 }) = .next t) ∨
        (¬(l.fifo = true ∧ (s.str.xidx + 1) % l.values = 0) ∧
          present (s.withStr { s.str with xidx := s.str.xidx + 1 }) = .next t)) := by
  unfold advance at h
  simp only at h
  split at h
  · cases h
  · rename_i l hl
    split at h
    · rename_i hc
      exact ⟨l, hl, .inl ⟨hc.1, hc.2, h⟩⟩
    · rename_i hc
      exact ⟨l, hl, .inr ⟨hc, h⟩⟩

/-- What a buffered start answers. -/
theorem startBuffered_next {s t : State} {other : Result} (h : startBuffered s other = .next t) :
    (∃ c, s.str.xbuf = some c ∧ start c (s.withStr { s.str with xbuf := none }) = .next t) ∨
      (s.str.xbuf = none ∧ other = .next t) := by
  unfold startBuffered at h
  split at h
  · rename_i c hc
    exact .inl ⟨c, hc, h⟩
  · rename_i hc
    exact .inr ⟨hc, h⟩

/-- What a rollover clock can do: start the buffered command, go on, or stop. -/
theorem onRollover_next {s t : State} (h : onRollover s = .next t) :
    (∃ c, s.str.xbuf = some c ∧ (s.str.xcnt = 0xFFFF ∨ s.str.xcnt = 1) ∧
        start c (s.withStr { s.str with xbuf := none }) = .next t) ∨
      (s.str.xbuf = none ∧ s.str.xcnt = 0xFFFF ∧ advance s = .next t) ∨
      (s.str.xbuf = none ∧ s.str.xcnt = 1 ∧ t = s.withStr { s.str with xcnt := 0 }) ∨
      (s.str.xcnt ≠ 0xFFFF ∧ s.str.xcnt ≠ 1 ∧
        advance (s.withStr { s.str with xcnt := s.str.xcnt - 1 }) = .next t) := by
  unfold onRollover at h
  split at h
  · rename_i h0
    rcases startBuffered_next h with ⟨c, hc, hs⟩ | ⟨hn, ha⟩
    · exact .inl ⟨c, hc, .inl h0, hs⟩
    · exact .inr (.inl ⟨hn, h0, ha⟩)
  · rename_i h0
    split at h
    · rename_i h1
      rcases startBuffered_next h with ⟨c, hc, hs⟩ | ⟨hn, ha⟩
      · exact .inl ⟨c, hc, .inr h1, hs⟩
      · injection ha with ha
        exact .inr (.inr (.inl ⟨hn, h1, ha.symm⟩))
    · rename_i h1
      exact .inr (.inr (.inr ⟨h0, h1, h⟩))

/-- What a streamer clock can do: nothing when stopped, an NCO step without a rollover, or a rollover. -/
theorem streamerClock_next {s t : State} (h : streamerClock s = .next t) :
    (s.str.xcnt = 0 ∧ t = s) ∨
      (s.str.xcnt ≠ 0 ∧ s.str.runsDds = false ∧
        ((rollsOver (ncoStep s.str.xfrq s.str.xphs) = false ∧
            t = s.withStr { s.str with xphs := ncoStep s.str.xfrq s.str.xphs }) ∨
          (rollsOver (ncoStep s.str.xfrq s.str.xphs) = true ∧
            onRollover (s.withStr { s.str with xphs := ncoStep s.str.xfrq s.str.xphs }) = .next t))) := by
  unfold streamerClock at h
  split at h
  · rename_i h0
    injection h with h
    exact .inl ⟨h0, h.symm⟩
  · rename_i h0
    split at h
    · cases h
    · rename_i hd
      have hd : s.str.runsDds = false := by simpa using hd
      by_cases hr : rollsOver (ncoStep s.str.xfrq s.str.xphs) = true
      · exact .inr ⟨h0, hd, .inr ⟨hr, (if_pos hr).symm.trans h⟩⟩
      · refine .inr ⟨h0, hd, .inl ⟨by simpa using hr, ?_⟩⟩
        injection (if_neg hr).symm.trans h with h
        exact h.symm

/-- The completion of an instruction whose effect answered a next state. -/
theorem thenRetire_next {r : Result} {immD immS : Bool} {t : State} (h : thenRetire r immD immS = .next t) :
    ∃ u, r = .next u ∧ t = u.withCog (u.cog.retire immD immS) := by
  cases r with
  | next u =>
    simp only [thenRetire] at h
    injection h with h
    exact ⟨u, rfl, h.symm⟩
  | fault f => cases h
  | refused e => cases h

/-- An XINIT that answers: nothing waited, or its count is 0 and the waiting command is dropped. -/
theorem initCommand_next {c : Command} {s t : State} (h : initCommand c s = .next t) :
    (s.str.xbuf = none ∧ start c s = .next t) ∨
      (s.str.xbuf.isSome = true ∧ c.count = 0 ∧ start c (s.withStr { s.str with xbuf := none }) = .next t) := by
  unfold initCommand at h
  split at h
  · rename_i hb
    split at h
    · rename_i hc
      exact .inr ⟨hb, hc, h⟩
    · cases h
  · rename_i hb
    exact .inl ⟨by simpa using hb, h⟩

/-- An XINIT with operands that answers. -/
theorem initWith_next {d o : Operand} {s t : State} (h : initWith d o s = .next t) :
    commandRefusal d o s = none ∧
      ∃ u, initCommand (commandOf .init (valueD s.cog d) (valueS s.cog o) s) s = .next u ∧
        t = u.withCog (u.cog.retire (isImmediate d) (isImmediate o)) := by
  unfold initWith at h
  split at h
  · cases h
  · rename_i hr
    exact ⟨hr, thenRetire_next h⟩

/-- XZERO or XCONT that answers: a start on a stopped streamer, a hold, or a place in the buffer. -/
theorem bufferCommand_next {kind : CmdKind} {d o : Operand} {s t : State} (h : bufferCommand kind d o s = .next t) :
    commandRefusal d o s = none ∧
      ((s.str.xcnt = 0 ∧ ∃ u, start (commandOf kind (valueD s.cog d) (valueS s.cog o) s) s = .next u ∧
          t = u.withCog (u.cog.retire (isImmediate d) (isImmediate o))) ∨
        (blocked s = true ∧ t = s) ∨
        (s.str.xcnt ≠ 0 ∧ s.str.xbuf = none ∧
          t = (s.withStr { s.str with
              xbuf := some (commandOf kind (valueD s.cog d) (valueS s.cog o) s) }).withCog
            (s.cog.retire (isImmediate d) (isImmediate o)))) := by
  unfold bufferCommand at h
  split at h
  · cases h
  · rename_i hr
    refine ⟨hr, ?_⟩
    simp only at h
    split at h
    · rename_i h0
      exact .inl ⟨h0, thenRetire_next h⟩
    · rename_i h0
      split at h
      · rename_i hb
        injection h with h
        exact .inr (.inl ⟨by simpa [blocked, hb] using h0, h.symm⟩)
      · rename_i hb
        injection h with h
        exact .inr (.inr ⟨h0, by simpa using hb, h.symm⟩)

/-- A GETXACC that answers. -/
theorem execGetxacc_next {d : Reg} {s t : State} (h : execGetxacc d s = .next t) :
    outsideGeneral s.par d = false ∧ d ∉ s.prog.regs ∧ t = readAccumulators d (drawGoertzel s) := by
  unfold execGetxacc at h
  split at h
  · cases h
  · rename_i h1
    split at h
    · cases h
    · rename_i h2
      injection h with h
      exact ⟨by simpa using h1, by simpa using h2, h.symm⟩

/-! ### What the streamer leaves alone: it changes only its own registers and the FIFO's position -/

/-- Everything but the streamer's own part and the FIFO is the same. -/
def SameOutsideStreamer (s t : State) : Prop :=
  t.cog = s.cog ∧ t.mixer = s.mixer ∧ t.dac = s.dac ∧ t.lut = s.lut ∧ t.prog = s.prog ∧ t.sched = s.sched ∧
    t.par = s.par ∧ ∃ n, t.fifo = s.fifo.consume n

theorem SameOutsideStreamer.of_withStr {s t : State} {x : Streamer} (h : SameOutsideStreamer (s.withStr x) t) :
    SameOutsideStreamer s t := h

theorem SameOutsideStreamer.withStr (s : State) (x : Streamer) : SameOutsideStreamer s (s.withStr x) :=
  ⟨rfl, rfl, rfl, rfl, rfl, rfl, rfl, 0, rfl⟩

theorem present_same {s t : State} (h : present s = .next t) : SameOutsideStreamer s t := by
  obtain ⟨rfl, -⟩ := present_next h
  exact ⟨rfl, rfl, rfl, rfl, rfl, rfl, rfl, 0, rfl⟩

theorem loadChunk_same {chunk : Nat} {s t : State} (h : loadChunk chunk s = .next t) : SameOutsideStreamer s t := by
  obtain ⟨-, rfl, -⟩ := loadChunk_next h
  exact ⟨rfl, rfl, rfl, rfl, rfl, rfl, rfl, _, rfl⟩

theorem loadFirst_same {s t : State} (h : loadFirst s = .next t) : SameOutsideStreamer s t := by
  obtain ⟨l, -, -, ⟨-, rfl⟩ | ⟨-, -, rfl⟩⟩ := loadFirst_next h
  · exact SameOutsideStreamer.withStr s _
  · exact ⟨rfl, rfl, rfl, rfl, rfl, rfl, rfl, _, rfl⟩

theorem start_same {c : Command} {s t : State} (h : start c s = .next t) : SameOutsideStreamer s t := by
  rcases start_next h with ⟨-, rfl⟩ | ⟨-, h⟩
  · exact SameOutsideStreamer.withStr s _
  · exact (loadFirst_same h).of_withStr

theorem advance_same {s t : State} (h : advance s = .next t) : SameOutsideStreamer s t := by
  obtain ⟨l, -, ⟨-, -, h⟩ | ⟨-, h⟩⟩ := advance_next h
  · exact (loadChunk_same h).of_withStr
  · exact (present_same h).of_withStr

theorem onRollover_same {s t : State} (h : onRollover s = .next t) : SameOutsideStreamer s t := by
  rcases onRollover_next h with ⟨c, -, -, h⟩ | ⟨-, -, h⟩ | ⟨-, -, rfl⟩ | ⟨-, -, h⟩
  · exact (start_same h).of_withStr
  · exact advance_same h
  · exact SameOutsideStreamer.withStr s _
  · exact (advance_same h).of_withStr

theorem streamerClock_same {s t : State} (h : streamerClock s = .next t) : SameOutsideStreamer s t := by
  rcases streamerClock_next h with ⟨-, rfl⟩ | ⟨-, -, ⟨-, rfl⟩ | ⟨-, h⟩⟩
  · exact ⟨rfl, rfl, rfl, rfl, rfl, rfl, rfl, 0, rfl⟩
  · exact SameOutsideStreamer.withStr s _
  · exact (onRollover_same h).of_withStr

/-- What a step can be: a due clock, a clock after the program's end, or the cog's turn. -/
theorem step_next {s t : State} (h : step s = .next t) :
    (s.sched.due ≠ 0 ∧ dueClock s = .next t) ∨
      (s.sched.due = 0 ∧ fetch s = .ended ∧ systemClock s = .next t) ∨
      (s.sched.due = 0 ∧ ∃ i u, fetch s = .instr i ∧ exec i s = .next u ∧ t = endTurn (holds i s) u) := by
  unfold step at h
  split at h
  · rename_i h0
    split at h
    · rename_i hf
      exact .inr (.inl ⟨h0, hf, h⟩)
    · rename_i i hf
      unfold cogTurn at h
      split at h
      · rename_i u hu
        injection h with h
        exact .inr (.inr ⟨h0, i, u, hf, hu, h.symm⟩)
      · cases h
      · cases h
    · cases h
    · cases h
  · rename_i h0
    exact .inl ⟨h0, h⟩

end Sys2Proof.Machine
end

