-- ==== Sys2Proof/Laws/PerInstr.lean ====
section
/-! SUPPORT. Statements made for every constructor of `Instr`, one lemma each. -/

namespace Sys2Proof.Laws

/-- Every encoded word carries the condition "always", the one the assembler emits (30_encoding.md R78). -/
def EncodesAlways.Statement (i : Instr) : Prop := Machine.conditionAdmitted (encode i) = true

theorem conditionAdmitted_fieldsWord (op : BitVec 7) (c z i : BitVec 1) (d s : BitVec 9) :
    Machine.conditionAdmitted (fieldsWord op c z i d s) = true := by
  simp only [Machine.conditionAdmitted, beq_iff_eq]
  apply BitVec.eq_of_getLsbD_eq
  intro k hk
  simp only [Machine.conditionField, fieldsWord, BitVec.getLsbD_append, BitVec.getLsbD_extractLsb']
  interval_cases k <;> simp

theorem conditionAdmitted_augment (op : BitVec 5) (n : AugBits) :
    Machine.conditionAdmitted (0xF#4 ++ op ++ n : BitVec 32) = true := by
  simp only [Machine.conditionAdmitted, beq_iff_eq]
  apply BitVec.eq_of_getLsbD_eq
  intro k hk
  simp only [Machine.conditionField, BitVec.getLsbD_append, BitVec.getLsbD_extractLsb']
  interval_cases k <;> simp

theorem EncodesAlways.addpix (d : Reg) (o : Operand) : EncodesAlways.Statement (.addpix d o) :=
  conditionAdmitted_fieldsWord _ _ _ _ _ _

theorem EncodesAlways.mulpix (d : Reg) (o : Operand) : EncodesAlways.Statement (.mulpix d o) :=
  conditionAdmitted_fieldsWord _ _ _ _ _ _

theorem EncodesAlways.blnpix (d : Reg) (o : Operand) : EncodesAlways.Statement (.blnpix d o) :=
  conditionAdmitted_fieldsWord _ _ _ _ _ _

theorem EncodesAlways.mixpix (d : Reg) (o : Operand) : EncodesAlways.Statement (.mixpix d o) :=
  conditionAdmitted_fieldsWord _ _ _ _ _ _

theorem EncodesAlways.setpiv (o : Operand) : EncodesAlways.Statement (.setpiv o) :=
  conditionAdmitted_fieldsWord _ _ _ _ _ _

theorem EncodesAlways.setpix (o : Operand) : EncodesAlways.Statement (.setpix o) :=
  conditionAdmitted_fieldsWord _ _ _ _ _ _

theorem EncodesAlways.setdacs (o : Operand) : EncodesAlways.Statement (.setdacs o) :=
  conditionAdmitted_fieldsWord _ _ _ _ _ _

theorem EncodesAlways.setxfrq (o : Operand) : EncodesAlways.Statement (.setxfrq o) :=
  conditionAdmitted_fieldsWord _ _ _ _ _ _

theorem EncodesAlways.setq (o : Operand) : EncodesAlways.Statement (.setq o) :=
  conditionAdmitted_fieldsWord _ _ _ _ _ _

theorem EncodesAlways.xinit (d o : Operand) : EncodesAlways.Statement (.xinit d o) :=
  conditionAdmitted_fieldsWord _ _ _ _ _ _

theorem EncodesAlways.xstop : EncodesAlways.Statement (.xstop) :=
  conditionAdmitted_fieldsWord _ _ _ _ _ _

theorem EncodesAlways.xzero (d o : Operand) : EncodesAlways.Statement (.xzero d o) :=
  conditionAdmitted_fieldsWord _ _ _ _ _ _

theorem EncodesAlways.xcont (d o : Operand) : EncodesAlways.Statement (.xcont d o) :=
  conditionAdmitted_fieldsWord _ _ _ _ _ _

theorem EncodesAlways.getxacc (d : Reg) : EncodesAlways.Statement (.getxacc d) :=
  conditionAdmitted_fieldsWord _ _ _ _ _ _

theorem EncodesAlways.augs (n : AugBits) : EncodesAlways.Statement (.augs n) :=
  conditionAdmitted_augment _ n

theorem EncodesAlways.augd (n : AugBits) : EncodesAlways.Statement (.augd n) :=
  conditionAdmitted_augment _ n

end Sys2Proof.Laws
end

