-- ==== Sys2Proof/Laws/Storage.lean ====
section
/-! SUPPORT. The laws of the sparse storage: what a write leaves readable, and that every operation keeps the canonical
form. -/

namespace Sys2Proof.Machine

variable {α : Type}

@[simp] theorem sparseGet_put_same (l : List (Nat × α)) (a : Nat) (v : α) :
    sparseGet (sparsePut l a v) a = some v := by
  induction l with
  | nil => simp [sparsePut, sparseGet]
  | cons p t ih =>
    obtain ⟨b, w⟩ := p
    simp only [sparsePut]
    split
    · simp [sparseGet]
    · split
      · simp [sparseGet]
      · simp_all [sparseGet]

theorem sparseGet_put_other (l : List (Nat × α)) {a b : Nat} (v : α) (h : b ≠ a) :
    sparseGet (sparsePut l a v) b = sparseGet l b := by
  induction l with
  | nil => simp [sparsePut, sparseGet, h]
  | cons p t ih =>
    obtain ⟨c, w⟩ := p
    simp only [sparsePut]
    split
    · simp [sparseGet, h]
    · split
      · subst c
        simp [sparseGet, h]
      · simp [sparseGet, ih]

/-- Below every listed address nothing is found. -/
theorem sparseGet_below (l : List (Nat × α)) {a : Nat} (h : ∀ p ∈ l, a < p.1) : sparseGet l a = none := by
  induction l with
  | nil => rfl
  | cons p t ih =>
    obtain ⟨b, w⟩ := p
    have hb : a < b := h _ List.mem_cons_self
    simp only [sparseGet, if_neg (Nat.ne_of_lt hb)]
    exact ih fun q hq => h q (List.mem_cons_of_mem _ hq)

theorem sparseRising_cons (a : Nat) (v : α) (t : List (Nat × α)) :
    sparseRising ((a, v) :: t) = true ↔ (∀ p ∈ t, a < p.1) ∧ sparseRising t = true := by
  simp [sparseRising]

theorem sparseGet_drop_same (l : List (Nat × α)) (a : Nat) (h : sparseRising l = true) :
    sparseGet (sparseDrop l a) a = none := by
  induction l with
  | nil => rfl
  | cons p t ih =>
    obtain ⟨b, w⟩ := p
    obtain ⟨hb, ht⟩ := (sparseRising_cons b w t).1 h
    simp only [sparseDrop]
    split
    · subst b
      exact sparseGet_below t hb
    · rename_i hne
      simp [sparseGet, hne, ih ht]

theorem sparseGet_drop_other (l : List (Nat × α)) {a b : Nat} (h : b ≠ a) :
    sparseGet (sparseDrop l a) b = sparseGet l b := by
  induction l with
  | nil => rfl
  | cons p t ih =>
    obtain ⟨c, w⟩ := p
    simp only [sparseDrop]
    split
    · subst c
      simp [sparseGet, h]
    · simp [sparseGet, ih]

theorem mem_sparsePut (l : List (Nat × α)) (a : Nat) (v : α) (p : Nat × α) (h : p ∈ sparsePut l a v) :
    p = (a, v) ∨ p ∈ l := by
  induction l with
  | nil => simpa [sparsePut] using h
  | cons q t ih =>
    obtain ⟨b, w⟩ := q
    simp only [sparsePut] at h
    split at h
    · simpa using h
    · split at h
      · rcases List.mem_cons.1 h with h | h
        · exact .inl h
        · exact .inr (List.mem_cons_of_mem _ h)
      · rcases List.mem_cons.1 h with h | h
        · exact .inr (h ▸ List.mem_cons_self)
        · exact (ih h).imp_right (List.mem_cons_of_mem _)

theorem mem_sparseDrop (l : List (Nat × α)) (a : Nat) (p : Nat × α) (h : p ∈ sparseDrop l a) : p ∈ l := by
  induction l with
  | nil => simp [sparseDrop] at h
  | cons q t ih =>
    obtain ⟨b, w⟩ := q
    simp only [sparseDrop] at h
    split at h
    · exact List.mem_cons_of_mem _ h
    · rcases List.mem_cons.1 h with h | h
      · exact h ▸ List.mem_cons_self
      · exact List.mem_cons_of_mem _ (ih h)

theorem sparsePut_keeps_rising (l : List (Nat × α)) (a : Nat) (v : α) (h : sparseRising l = true) :
    sparseRising (sparsePut l a v) = true := by
  induction l with
  | nil => simp [sparsePut, sparseRising]
  | cons q t ih =>
    obtain ⟨b, w⟩ := q
    obtain ⟨hb, ht⟩ := (sparseRising_cons b w t).1 h
    simp only [sparsePut]
    split
    · rename_i hab
      refine (sparseRising_cons _ _ _).2 ⟨fun p hp => ?_, h⟩
      rcases List.mem_cons.1 hp with rfl | hp
      · exact hab
      · exact Nat.lt_trans hab (hb p hp)
    · split
      · subst b
        exact (sparseRising_cons _ _ _).2 ⟨hb, ht⟩
      · rename_i hab hne
        refine (sparseRising_cons _ _ _).2 ⟨fun p hp => ?_, ih ht⟩
        rcases mem_sparsePut t a v p hp with rfl | hp
        · show b < a
          omega
        · exact hb p hp

theorem sparseDrop_keeps_rising (l : List (Nat × α)) (a : Nat) (h : sparseRising l = true) :
    sparseRising (sparseDrop l a) = true := by
  induction l with
  | nil => rfl
  | cons q t ih =>
    obtain ⟨b, w⟩ := q
    obtain ⟨hb, ht⟩ := (sparseRising_cons b w t).1 h
    simp only [sparseDrop]
    split
    · exact ht
    · exact (sparseRising_cons _ _ _).2 ⟨fun p hp => hb p (mem_sparseDrop t a p hp), ih ht⟩

/-! ### Byte storage -/

@[simp] theorem Memory.read_write_same (m : Memory) (a : Nat) (b : Byte) :
    Memory.read (Memory.write m a b) a = some b := sparseGet_put_same m a b

theorem Memory.read_write_other (m : Memory) {a c : Nat} (b : Byte) (h : c ≠ a) :
    Memory.read (Memory.write m a b) c = Memory.read m c := sparseGet_put_other m b h

theorem Memory.write_wf (m : Memory) (a : Nat) (b : Byte) (h : Memory.wf m = true) :
    Memory.wf (Memory.write m a b) = true := sparsePut_keeps_rising m a b h

theorem Memory.writeAll_wf (bs : List Byte) : ∀ (m : Memory) (a : Nat), Memory.wf m = true →
    Memory.wf (Memory.writeAll m a bs) = true := by
  induction bs with
  | nil => exact fun _ _ h => h
  | cons b bs ih => exact fun m a h => ih _ _ (Memory.write_wf m a b h)

/-! ### Word storage -/

theorem Bank.read_write_same (b : Bank) (a : Nat) (v : Word) (h : sparseRising b = true) :
    Bank.read (Bank.write b a v) a = v := by
  unfold Bank.read Bank.write
  split
  · rename_i hv
    simp [sparseGet_drop_same b a h, hv]
  · simp

theorem Bank.read_write_other (b : Bank) {a c : Nat} (v : Word) (h : c ≠ a) :
    Bank.read (Bank.write b a v) c = Bank.read b c := by
  unfold Bank.read Bank.write
  split
  · rw [sparseGet_drop_other b h]
  · rw [sparseGet_put_other b v h]

theorem Bank.wf_rising {size : Nat} {b : Bank} (h : Bank.wf size b = true) : sparseRising b = true := by
  simp only [Bank.wf, Bool.and_eq_true] at h
  exact h.1

theorem Bank.write_wf {size : Nat} {b : Bank} {a : Nat} (v : Word) (h : Bank.wf size b = true) (ha : a < size) :
    Bank.wf size (Bank.write b a v) = true := by
  simp only [Bank.wf, Bool.and_eq_true, List.all_eq_true, decide_eq_true_eq] at h ⊢
  unfold Bank.write
  split
  · exact ⟨sparseDrop_keeps_rising b a h.1, fun p hp => h.2 p (mem_sparseDrop b a p hp)⟩
  · rename_i hv
    refine ⟨sparsePut_keeps_rising b a v h.1, fun p hp => ?_⟩
    rcases mem_sparsePut b a v p hp with rfl | hp
    · exact ⟨ha, hv⟩
    · exact h.2 p hp

/-! ### Cog registers -/

theorem Cog.readReg_writeReg_same (c : Cog) (n : Reg) (v : Word) (h : sparseRising c.regs = true) :
    (c.writeReg n v).readReg n = v := Bank.read_write_same c.regs n.toNat v h

theorem Cog.readReg_writeReg_other (c : Cog) {n k : Reg} (v : Word) (h : k ≠ n) :
    (c.writeReg n v).readReg k = c.readReg k :=
  Bank.read_write_other c.regs v fun e => h (BitVec.eq_of_toNat_eq e)

/-! ### The state at reset -/

theorem reset_text_wf : Memory.wf State.reset.prog.text = true := by decide

theorem reset_regs_wf : Bank.wf State.reset.par.nreg State.reset.cog.regs = true := by decide

theorem reset_lut_wf : Bank.wf State.reset.par.lutSize State.reset.lut = true := by decide

/-- Loading a word keeps the program text's canonical form. -/
theorem withFetchWord_text_wf (s : State) (nbits w : Nat) (h : Memory.wf s.prog.text = true) :
    Memory.wf (s.withFetchWord nbits w).prog.text = true := Memory.writeAll_wf _ _ _ h

end Sys2Proof.Machine
end

