-- ==== Sys2Proof/Tests/Slice0.lean ====
section
/-! SUPPORT. The model's own tests. Expected values are those of spec/95_test_vectors.md (the section stands at each group),
or are worked out by hand from the rule a test names. The last group shows, for each statement of
Certificates/Slice0/Obligations.lean that has hypotheses, a state and operands that meet them. -/

namespace Sys2Proof.Tests

open Sys2Proof Sys2Proof.Machine

/-! ### Helpers -/

/-- Cog start with some registers set. -/
def withRegs (regs : Bank) : State := State.reset.withCog { State.reset.cog with regs := regs }

/-- Cog start with V and M set as well. -/
def withMixer (v : Byte) (m : BitVec 6) (regs : Bank) : State := (withRegs regs).withMixer { v := v, m := m }

/-- A command runs from data `data` at one rollover per clock. -/
def running (xcmd n : BitVec 16) (data : Word) : State :=
  State.reset.withStr { State.reset.str with xcmd := xcmd, xcnt := n, xsrc := data, xdat := data }

/-- The same with a command in the buffer. -/
def waiting (xcmd n : BitVec 16) (data : Word) (c : Command) : State :=
  let s := running xcmd n data
  s.withStr { s.str with xbuf := some c }

/-- The FIFO ready to deliver these bytes. -/
def fifoOf (bs : List Byte) : Fifo := { rdReady := true, rd := bs, rdPos := 0, wrReady := false, wr := [] }

/-- The next state, if there is one. -/
def nextOf (r : Result) : Option State :=
  match r with
  | .next t => some t
  | .fault _ => none
  | .refused _ => none

/-- The name of a refusal, if it is one. -/
def refusalOf (r : Result) : Option Refusal :=
  match r with
  | .next _ => none
  | .fault _ => none
  | .refused e => some e

/-- A register after an instruction. -/
def regAfter (n : Reg) (r : Result) : Option Word := (nextOf r).map fun t => t.cog.readReg n

/-- An 8-bit immediate command to DAC channel 0: `$640E_0002` of programs P3 and P4. -/
def byteCommand (kind : CmdKind) (data : Word) : Command := { kind := kind, d := 0x640E0002, s := data, q := none }

/-! ### WellFormed: one ill-formed term for each check -/

theorem test_wellFormed_refuses_wide_S : (Instr.addpix 10 (.imm 0x200)).wellFormed = false := by decide
theorem test_wellFormed_refuses_wide_D : (Instr.setpiv (.imm 0x200)).wellFormed = false := by decide
theorem test_wellFormed_refuses_wide_D_of_command : (Instr.xcont (.imm 0x200) (.imm 0)).wellFormed = false := by decide
theorem test_wellFormed_refuses_wide_S_of_command : (Instr.xzero (.imm 0) (.imm 0x200)).wellFormed = false := by decide
theorem test_wellFormed_refuses_second_XSTOP : (Instr.xinit (.imm 0) (.imm 0)).wellFormed = false := by decide
theorem test_wellFormed_admits_the_bound : (Instr.xinit (.imm 0x1FF) (.imm 0)).wellFormed = true := by decide

/-! ### Decode: a written-out word for every constructor (section 5) -/

theorem test_decode_addpix : decodeWord 0xFA40140B = some (.addpix 10 (.reg 11)) := by decide
theorem test_decode_addpix_immediate : decodeWord 0xFA4415FF = some (.addpix 10 (.imm 0x1FF)) := by decide
theorem test_decode_mulpix : decodeWord 0xFA48140B = some (.mulpix 10 (.reg 11)) := by decide
theorem test_decode_blnpix : decodeWord 0xFA50140B = some (.blnpix 10 (.reg 11)) := by decide
theorem test_decode_mixpix : decodeWord 0xFA58140B = some (.mixpix 10 (.reg 11)) := by decide
theorem test_decode_setpiv : decodeWord 0xFD65003D = some (.setpiv (.imm 0x80)) := by decide
theorem test_decode_setpiv_register : decodeWord 0xFD60183D = some (.setpiv (.reg 12)) := by decide
theorem test_decode_setpix : decodeWord 0xFD64343E = some (.setpix (.imm 0b011010)) := by decide
theorem test_decode_setdacs : decodeWord 0xFD601A1C = some (.setdacs (.reg 13)) := by decide
theorem test_decode_setxfrq : decodeWord 0xFD601C1D = some (.setxfrq (.reg 14)) := by decide
theorem test_decode_getxacc : decodeWord 0xFD601E1E = some (.getxacc 15) := by decide
theorem test_decode_getxacc_refuses_L : decodeWord 0xFD641E1E = none := by decide
theorem test_decode_setq : decodeWord 0xFD602028 = some (.setq (.reg 16)) := by decide
theorem test_decode_xinit : decodeWord 0xFCA02815 = some (.xinit (.reg 20) (.reg 21)) := by decide
theorem test_decode_xinit_immediates : decodeWord 0xFCAC0810 = some (.xinit (.imm 4) (.imm 0x10)) := by decide
theorem test_decode_xzero : decodeWord 0xFCB02815 = some (.xzero (.reg 20) (.reg 21)) := by decide
theorem test_decode_xcont : decodeWord 0xFCC02815 = some (.xcont (.reg 20) (.reg 21)) := by decide
theorem test_decode_xcont_mixed : decodeWord 0xFCC42800 = some (.xcont (.reg 20) (.imm 0)) := by decide
theorem test_decode_xstop : decodeWord 0xFCAC0000 = some .xstop := by decide
theorem test_decode_augd : decodeWord 0xFFB20700 = some (.augd ((0x640E0004 : Word).extractLsb' 9 23)) := by decide
theorem test_decode_augs : decodeWord 0xFF201810 = some (.augs ((0x40302010 : Word).extractLsb' 9 23)) := by decide
theorem test_decodeTableWord_takes_28_bits : decodeTableWord 32 0x0A40140B = some (.addpix 10 (.reg 11)) := by decide
theorem test_decode_refuses_short_text : decode [0x0B, 0x14, 0x40] = .truncated := by decide
theorem test_encode_xinit : encode (.xinit (.reg 20) (.reg 21)) = 0xFCA02815 := by decide
theorem test_encode_setpiv : encode (.setpiv (.imm 0x80)) = 0xFD65003D := by decide
theorem test_fetch_refuses_condition :
    fetch (State.reset.withFetchWord 32 0x0A40140B) = .reject .conditionNotModelled := by decide
theorem test_fetch_finds_the_word : fetch (State.reset.withFetchWord 32 0xFA40140B) = .instr (.addpix 10 (.reg 11)) := by
  decide
theorem test_fetch_refuses_foreign_word :
    fetch (State.reset.withFetchWord 32 0xFD641E1E) = .reject .notAnInstruction := by decide
theorem test_fetch_ends_on_empty_text : fetch State.reset = .ended := by decide

/-! ### The pixel mixer (section 2.1, 2.2) -/

theorem test_addpix_saturates :
    regAfter 10 (exec (.addpix 10 (.reg 11)) (withRegs [(10, 0x80FF0110), (11, 0x80017FF0)])) = some 0xFFFF80FF := by
  decide
theorem test_addpix_same_register :
    regAfter 10 (exec (.addpix 10 (.reg 10)) (withRegs [(10, 0x807F4001)])) = some 0xFFFE8002 := by decide
theorem test_mulpix_rounds_up :
    regAfter 10 (exec (.mulpix 10 (.reg 11)) (withRegs [(10, 0x01010203), (11, 0x01FF0080)])) = some 0x01010002 := by
  decide
theorem test_mulpix_immediate :
    regAfter 10 (exec (.mulpix 10 (.imm 0x1FF)) (withRegs [(10, 0x12FE8001)])) = some 0x00000101 := by decide
theorem test_blnpix_half :
    regAfter 10 (exec (.blnpix 10 (.reg 11)) (withMixer 0x80 0 [(10, 0xFF000080), (11, 0x00FF8040)])) =
      some 0x7F804060 := by decide
theorem test_blnpix_quarter :
    regAfter 10 (exec (.blnpix 10 (.reg 11)) (withMixer 0x40 0 [(10, 0xFF00C864), (11, 0x00FF3264)])) =
      some 0xBF40A264 := by decide
theorem test_mixpix_complements :
    regAfter 10 (exec (.mixpix 10 (.reg 11)) (withMixer 0x40 0b111101 [(10, 0x204080FF), (11, 0x10C040FF)])) =
      some 0x2B5F7000 := by decide
theorem test_mixpix_blend_reversed :
    regAfter 10 (exec (.mixpix 10 (.reg 11)) (withMixer 0x40 0b010011 [(10, 0x204080FF), (11, 0x10C040FF)])) =
      some 0x14A050FF := by decide
theorem test_setpiv_low_byte :
    (nextOf (exec (.setpiv (.reg 12)) (withRegs [(12, 0x123456C1)]))).map (·.mixer.v) = some 0xC1 := by decide
theorem test_setpix_low_six_bits :
    (nextOf (exec (.setpix (.reg 12)) (withRegs [(12, 0xFFFFFFC5)]))).map (·.mixer.m) = some 0b000101 := by decide
theorem test_special_register_is_refused :
    refusalOf (exec (.addpix 10 (.reg 0x1FC)) State.reset) = some .notGeneralRegister := by decide

/-! ### The DAC channels (sections 2.2, 2.5, 2.6) -/

theorem test_setdacs_bytes :
    (nextOf (exec (.setdacs (.reg 13)) (withRegs [(13, 0xC0804020)]))).map (·.dac.bg) = some ⟨0xC0, 0x80, 0x40, 0x20⟩ := by
  decide
theorem test_setdacs_immediate :
    (nextOf (exec (.setdacs (.imm 0x1FF)) State.reset)).map (·.dac.bg) = some ⟨0x00, 0x00, 0x01, 0xFF⟩ := by decide
theorem test_chan_two_dac2 : chan 2 2 0b0110 = ⟨0x00, 0x00, 0x55, 0xAA⟩ := by decide
theorem test_chan_four_dac4 : chan 4 4 0xF731 = ⟨0xFF, 0x77, 0x33, 0x11⟩ := by decide
theorem test_route_complements :
    [(3 : Fin 4), 2, 1, 0].map (fun n => (route 14 n).apply ⟨0x78, 0x56, 0x34, 0x12⟩ 0) = [0xCB, 0x34, 0xED, 0x12] := by
  decide
theorem test_route_eleven :
    [(3 : Fin 4), 2, 1, 0].map (fun n => (route 11 n).apply ⟨0x78, 0x56, 0x34, 0x12⟩ 0) = [0x34, 0x12, 0x34, 0x12] := by
  decide

/-! ### The streamer's instructions (section 2.10, programs P3 to P8) -/

theorem test_setxfrq :
    (nextOf (exec (.setxfrq (.reg 14)) (withRegs [(14, 0x2AAAAAAB)]))).map (·.str.xfrq) = some 0x2AAAAAAB := by decide
theorem test_setq : (nextOf (exec (.setq (.imm 0x1F)) State.reset)).map (·.cog.qpend) = some (some 0x1F) := by decide
theorem test_setq_dropped_by_setpiv :
    (nextOf (execAll [.setq (.imm 5), .setpiv (.imm 0), .xinit (.imm 4) (.imm 0)] State.reset)).map (·.str.xfrq) =
      some 0x80000000 := by decide
theorem test_xinit_starts :
    (nextOf (exec (.xinit (.imm 0x640E0004) (.imm 0x40302010)) State.reset)).map
      (fun t => (t.str.xcnt, t.str.xcmd, (xout t).c0, t.cog.pc)) = some (4, 0x640E, 0x10, 1) := by decide
theorem test_xinit_over_buffered :
    refusalOf (exec (.xinit (.imm 0x640E0004) (.imm 0)) (waiting 0x640E 2 0 (byteCommand .cont 0))) =
      some .xinitOverBuffered := by decide
theorem test_xstop_over_buffered :
    (nextOf (exec .xstop (waiting 0x640E 2 0 (byteCommand .cont 0)))).map (fun t => (t.str.xcnt, t.str.xbuf)) =
      some (0, none) := by decide
theorem test_xstop_zeroes_phase_and_command :
    (nextOf (exec .xstop (running 0x640E 0 7))).map (fun t => (t.str.xphs, t.str.xcmd, t.str.xcnt)) = some (0, 0, 0) := by
  decide
theorem test_xcont_is_buffered :
    (nextOf (exec (.xcont (.imm 0x640E0002) (.imm 0x4433)) (running 0x640E 2 0x2211))).map
      (fun t => (t.str.xbuf, t.cog.pc)) = some (some (byteCommand .cont 0x4433), 1) := by decide
theorem test_xcont_starts_when_stopped :
    (nextOf (exec (.xcont (.imm 0x640E0002) (.imm 0x4433)) State.reset)).map (fun t => (t.str.xcnt, (xout t).c0)) =
      some (2, 0x33) := by decide
theorem test_xzero_is_held :
    (nextOf (exec (.xzero (.imm 0x640E0003) (.imm 0)) (waiting 0x640E 2 0 (byteCommand .cont 0)))).map
      (fun t => (t.cog.pc, t.str.xbuf)) = some (0, some (byteCommand .cont 0)) := by decide
theorem test_xzero_is_buffered :
    (nextOf (exec (.xzero (.imm 0x640E0002) (.imm 7)) (running 0x640E 1 0))).map (·.str.xbuf) =
      some (some (byteCommand .zero 7)) := by decide
theorem test_getxacc_clears :
    (nextOf (exec (.getxacc 15) State.reset)).map (fun t => (t.str.xacx, t.str.xacy, t.cog.nexts.isSome, t.cog.pc)) =
      some (0, 0, true, 1) := by decide
theorem test_getxacc_special : refusalOf (exec (.getxacc 0x1F0) State.reset) = some .notGeneralRegister := by decide
theorem test_augs_then_addpix :
    regAfter 10 (execAll [.augs ((0x80017FF0 : Word).extractLsb' 9 23), .addpix 10 (.imm 0x1F0)]
      (withRegs [(10, 0x80FF0110)])) = some 0xFFFF80FF := by decide
theorem test_augd_then_setdacs :
    (nextOf (execAll [.augd ((0xC0804020 : Word).extractLsb' 9 23), .setdacs (.imm 0x020)] State.reset)).map (·.dac.bg) =
      some ⟨0xC0, 0x80, 0x40, 0x20⟩ := by decide

/-! ### Modes, data order, pins, clocks (sections 2.3, 2.4, 2.7 to 2.9, 3) -/

theorem test_mode_rflong_lut : modeOf 0x7C05 = .fifoLut 2 true := by decide
theorem test_mode_without_row :
    refusalOf (exec (.xinit (.imm 0x70090001) (.imm 0)) State.reset) = some .undefinedStreamerMode := by decide
theorem test_mode_lost :
    refusalOf (exec (.xinit (.imm 0xB0030001) (.imm 0)) State.reset) = some .streamerModeNotSpecified := by decide
theorem test_mode_without_row_count_zero :
    (nextOf (exec (.xinit (.imm 0x70090000) (.imm 0)) State.reset)).map (·.str.xcnt) = some 0 := by decide
theorem test_lut_out_of_range :
    refusalOf (exec (.xinit (.imm 0x30090001) (.imm 224)) State.reset) = some .lookupOutOfRange := by decide
theorem test_lut_last_word :
    (nextOf (exec (.xinit (.imm 0x30080001) (.imm 255)) State.reset)).map (·.str.lutTarget) = some (some 511) := by decide
theorem test_dataField_two_top_first :
    (List.range 8).map (dataField 0x12345678 2 true) = [1, 3, 2, 0, 1, 1, 1, 2] := by decide
theorem test_dataField_four : (List.range 8).map (dataField 0x12345678 4 false) = [8, 7, 6, 5, 4, 3, 2, 1] := by decide
theorem test_pinBase_one : pinBase 0x40FF = 63 := by decide
theorem test_pinBase_two : pinBase 0x50F4 = 58 := by decide
theorem test_placePins_wraps : placePins 56 0xBEEF = 0xEF000000000000BE := by decide
theorem test_nco_third : (List.range 4).map (fun k => (ncoStep 0x2AAAAAAA)^[k + 1] 0) =
    [0x2AAAAAAA, 0x55555554, 0x7FFFFFFE, 0xAAAAAAA8] := by decide
theorem test_clock_presents_second_byte :
    (nextOf (streamerClock (running 0x640E 4 0x40302010))).map (fun t => (t.str.xcnt, t.str.xidx, (xout t).c0)) =
      some (3, 1, 0x20) := by decide
theorem test_last_clock_stops :
    (nextOf (streamerClock (running 0x640E 1 0))).map (fun t => (t.str.xcnt, t.str.xphs)) = some (0, 0x80000000) := by
  decide
theorem test_rdfast_start :
    (nextOf (exec (.xinit (.imm 0xA9AD0004) (.imm 0)) (State.reset.withFifo (fifoOf [0xA5, 0x3C])))).map
      (fun t => (t.str.xdat, t.fifo.rdPos, (xout t).c0, xpin t)) = some (0xA5, 1, 0xAA, 0x0000000000A00000) := by decide
theorem test_luma8_start :
    (nextOf (exec (.xinit (.imm 0xBFD20003) (.imm 0)) (State.reset.withFifo (fifoOf [0x81])))).map
      (fun t => ((xout t).word, xpin t)) = some (0x81400000, 0x4000000000000081) := by decide

/-! ### The open parameters at other values than the usual ones (00_scope.md R6) -/

/-- Cog start with other parameters. -/
def withParams (p : Params) : State := { State.reset with par := p }

theorem test_register_at_NREG_is_refused :
    refusalOf (exec (.addpix 10 (.reg 16)) (withParams { Config.usual with nreg := 16 })) = some .notGeneralRegister := by
  decide
theorem test_lookup_below_larger_LUT_SIZE :
    (nextOf (exec (.xinit (.imm 0x30090001) (.imm 224)) (withParams { Config.usual with lutSize := 513 }))).map
      (·.str.lutTarget) = some (some 512) := by decide
theorem test_getxacc_truncates_wide_accumulators :
    (readAccumulators 15 (State.reset.withStr { State.reset.str with xacx := 2 ^ 33 + 5 })).cog.readReg 15 = 5 := by decide
theorem test_fifo_big_endian : (fifoOf [0x12, 0x34, 0x56, 0x78]).value .big 4 = 0x12345678 := by decide
theorem test_fifo_little_endian : (fifoOf [0x12, 0x34, 0x56, 0x78]).value .little 4 = 0x78563412 := by decide

/-! ### Witnesses: a state and operands that meet the hypotheses of each statement -/

/-- The word of ADDPIX 10,11 at the program counter. -/
def loaded : State := State.reset.withFetchWord 32 0xFA40140B

/-- XCONT 20,21 at the program counter, a command running and another waiting. -/
def heldState : State :=
  (waiting 0x640E 2 0x2211 (byteCommand .cont 0x4433)).withFetchWord 32 0xFCC02815

theorem witness_CogStartFrequencyRollsOverEveryClock :
    (running 0x640E 4 0).str.xfrq = 0x80000000 ∧ (running 0x640E 4 0).str.xcnt ≠ 0 ∧
      (running 0x640E 4 0).str.runsDds = false := by decide

theorem running_inv : MachineInv (running 0x640E 4 0x40302010) := by
  refine ⟨⟨rfl, rfl, rfl⟩, fun c h => ?_, fun _ => ⟨⟨_, rfl, fun h => ?_, fun _ => rfl⟩, fun a h => ?_⟩, fun h => ?_,
    ⟨by decide, by decide⟩, show 481 ≤ 512 by decide⟩
  · cases h
  · cases h
  · cases h
  · cases h

theorem witness_StepKeepsTheMachineInvariant :
    ∃ s t : State, MachineInv s ∧ step s = .next t ∧ t.str.xcnt = 3 ∧ t.str.xidx = 1 :=
  ⟨running 0x640E 4 0x40302010, _, running_inv, rfl, rfl, rfl⟩

theorem witness_DecodeOfEncodeIsTheInstruction :
    (Instr.addpix 0x1FF (.imm 0x1FF)).wellFormed = true ∧ (Instr.xinit (.imm 0) (.imm 1)).wellFormed = true := by decide

theorem witness_EncodeOfDecodeIsTheWord :
    conditionAdmitted 0xFCAC0000 = true ∧ decodeWord 0xFCAC0000 = some .xstop ∧
      conditionAdmitted 0xFCAC0001 = true ∧ decodeWord 0xFCAC0001 = some (.xinit (.imm 0) (.imm 1)) := by decide

theorem witness_StepRunsTheDecodedInstruction :
    loaded.sched.due = 0 ∧ Memory.readRun loaded.prog.text (4 * loaded.cog.pc) 4 = [0x0B, 0x14, 0x40, 0xFA] ∧
      conditionAdmitted (leWord [0x0B, 0x14, 0x40, 0xFA]) = true ∧
      decode [0x0B, 0x14, 0x40, 0xFA] = .instr (.addpix 10 (.reg 11)) [] ∧
      (nextOf (exec (.addpix 10 (.reg 11)) loaded)).isSome = true := by decide

theorem witness_StepRunsTheDecodedInstruction_refused :
    let s := State.reset.withFetchWord 32 0xFA4015FC
    s.sched.due = 0 ∧ decode (Memory.readRun s.prog.text (4 * s.cog.pc) 4) = .instr (.addpix 10 (.reg 0x1FC)) [] ∧
      conditionAdmitted (leWord (Memory.readRun s.prog.text (4 * s.cog.pc) 4)) = true ∧
      refusalOf (exec (.addpix 10 (.reg 0x1FC)) s) = some .notGeneralRegister := by decide

theorem witness_ClocksPassBetweenTurnsAndAfterTheEnd :
    (loaded.withSched { loaded.sched with due := 1 }).sched.due ≠ 0 ∧
      State.reset.sched.due = 0 ∧ Memory.read State.reset.prog.text (4 * State.reset.cog.pc) = none := by decide

theorem witness_StepRefusesWordsOutsideTheSpec :
    let bs : List Byte := [0x0B, 0x14, 0x40, 0x0A]
    let cs : List Byte := [0x1E, 0x1E, 0x64, 0xFD]
    (State.reset.withFetchWord 32 0x0A40140B).sched.due = 0 ∧
      Memory.readRun (State.reset.withFetchWord 32 0x0A40140B).prog.text 0 4 = bs ∧ bs.length = 4 ∧
      conditionField (leWord bs) ≠ 0xF#4 ∧
      Memory.readRun (State.reset.withFetchWord 32 0xFD641E1E).prog.text 0 4 = cs ∧ cs.length = 4 ∧
      conditionField (leWord cs) = 0xF#4 ∧ decodeWord (leWord cs) = none := by decide

theorem witness_LoadedWordIsFetched : (Instr.xcont (.reg 0x1FF) (.imm 0x1FF)).wellFormed = true := by decide

theorem witness_PixelLanesAreIndependent :
    3 < 4 ∧ byteAt 0x11223344 3 = byteAt 0x11998877 3 ∧ byteAt 0xFF000000 3 = byteAt 0xFFFFFFFF 3 := by decide

theorem writable_low : Writable 0 State.reset := ⟨by decide, by decide⟩

/-- `$1EF` is the last register below the special-function registers. -/
theorem writable_high : Writable 0x1EF State.reset := ⟨by decide, by decide⟩

theorem plain_high : PlainOperand (.reg 0x1EF) State.reset := rfl

theorem plain_immediate : PlainOperand (.imm 0xFFFFFFFF) State.reset := rfl

theorem witness_AddpixAddsBytesWithSaturation :
    ∃ (d : Reg) (o : Operand) (s : State), Writable d s ∧ PlainOperand o s :=
  ⟨0x1EF, .reg 0x1EF, State.reset, writable_high, plain_high⟩

theorem witness_MulpixMultipliesBytesRoundingUp :
    ∃ (d : Reg) (o : Operand) (s : State), Writable d s ∧ PlainOperand o s :=
  ⟨0, .imm 0xFFFFFFFF, State.reset, writable_low, plain_immediate⟩

theorem witness_BlnpixBlendsBytesByV :
    ∃ (d : Reg) (o : Operand) (s : State), Writable d s ∧ PlainOperand o s ∧ s.mixer.v = 0x80 :=
  ⟨10, .reg 11, withMixer 0x80 0 [(10, 0xFF000080)], ⟨by decide, by decide⟩, rfl, rfl⟩

theorem witness_MixpixMixesBytesByM :
    ∃ (d : Reg) (o : Operand) (s : State), Writable d s ∧ PlainOperand o s ∧ s.mixer.m = 0b111111 :=
  ⟨10, .reg 11, withMixer 0x40 0b111111 [(10, 0x204080FF)], ⟨by decide, by decide⟩, rfl, rfl⟩

theorem witness_MixAndBlendBecomeSimplerOperations :
    ∀ (v : Byte) (m : BitVec 6), Writable 10 (withMixer v m []) ∧ PlainOperand (.reg 11) (withMixer v m []) ∧
      (withMixer v m []).mixer.v = v ∧ (withMixer v m []).mixer.m = m :=
  fun _ _ => ⟨⟨rfl, fun h => nomatch h⟩, rfl, rfl, rfl⟩

theorem witness_SetpivAndSetpixSetTheMixer :
    PlainOperand (.reg 0) State.reset ∧ PlainOperand (.imm 0x1FF) State.reset := ⟨rfl, rfl⟩

theorem witness_SetdacsSetsTheFourChannels :
    PlainOperand (.reg 13) State.reset ∧ State.reset.dac.csOn = false ∧ State.reset.str.xcnt = 0 := ⟨rfl, rfl, rfl⟩

theorem witness_DacRoutingFollowsTheTable :
    State.reset.dac.csOn = false ∧ State.reset.str.xcnt = 0 ∧ (running 0x6F0E 4 0).dac.csOn = false ∧
      (running 0x6F0E 4 0).str.xcnt ≠ 0 ∧ ddddField (running 0x6F0E 4 0).str.xcmd = 15 := by decide

theorem witness_ChannelDrivesPinsOfItsResidue : (63 : Fin 64).val % 4 = (3 : Fin 4).val := by decide

theorem witness_SetxfrqAndSetqTakeTheirOperand :
    PlainOperand (.reg 0x1EF) State.reset ∧ PlainOperand (.imm 0) State.reset := ⟨rfl, rfl⟩

/-- The layout of the command word of `byteCommand`. -/
theorem layout_byteCommand : (modeOf ((0x640E0002 : Word).extractLsb' 16 16)).layout = some ⟨8, 32, false, false⟩ := by
  decide

/-- The layout of the command word of the states `running 0x640E`. -/
theorem layout_running : (modeOf 0x640E).layout = some ⟨8, 32, false, false⟩ := by decide

/-- An immediate command of this kind is accepted behind nothing. -/
theorem startable_byteCommand (kind : CmdKind) : Startable (byteCommand kind 0x4433) State.reset := by
  refine .inr ⟨⟨8, 32, false, false⟩, layout_byteCommand, fun h => ?_, fun a h => ?_⟩
  · cases h
  · cases kind <;> cases h

theorem admitted_immediates (s : State) (h : s.cog.qpend = none) (v w : Word) : CommandAdmitted (.imm v) (.imm w) s :=
  ⟨rfl, rfl, by simp [SetqAdjacent, h]⟩

theorem witness_XinitStartsItsCommandAtOnce :
    CommandAdmitted (.imm 0x640E0002) (.imm 0x4433) State.reset ∧ State.reset.str.xbuf = none ∧
      Startable ⟨.init, valueD State.reset.cog (.imm 0x640E0002), valueS State.reset.cog (.imm 0x4433), none⟩
        (State.reset.withStr { State.reset.str with xbuf := none }) :=
  ⟨admitted_immediates _ rfl _ _, rfl, startable_byteCommand .init⟩

theorem witness_XinitStartsItsCommandAtOnce_count_zero :
    let s := waiting 0x640E 2 0 (byteCommand .cont 0)
    CommandAdmitted (.imm 0x640E0000) (.imm 0) s ∧ s.str.xbuf.isSome = true ∧
      Command.count ⟨.init, valueD s.cog (.imm 0x640E0000), valueS s.cog (.imm 0), none⟩ = 0 :=
  ⟨admitted_immediates _ rfl _ _, rfl, rfl⟩

theorem witness_XinitStartsItsCommandAtOnce_refused :
    let s := waiting 0x640E 2 0 (byteCommand .cont 0)
    CommandAdmitted (.imm 0x640E0001) (.imm 0) s ∧ s.str.xbuf.isSome = true ∧
      Command.count ⟨.init, valueD s.cog (.imm 0x640E0001), valueS s.cog (.imm 0), none⟩ ≠ 0 :=
  ⟨admitted_immediates _ rfl _ _, rfl, by decide⟩

theorem witness_XstopStopsTheStreamer :
    let s := waiting 0x640E 2 0 (byteCommand .cont 0)
    s.cog.augs = none ∧ s.cog.augd = none ∧ SetqAdjacent s := ⟨rfl, rfl, rfl⟩

theorem witness_XstopIsXinitOfZeros :
    (running 0x640E 4 0).cog.nexts = none ∧
      (State.reset.withCog { State.reset.cog with nexts := some 5, augd := some 0 }).cog.augd.isSome = true ∧
      (State.reset.withCog { State.reset.cog with nexts := some 5, augs := some 0 }).cog.augs.isSome = true := by decide

theorem witness_XzeroAndXcontStartOnAStoppedStreamer :
    CommandAdmitted (.imm 0x640E0002) (.imm 0x4433) State.reset ∧ State.reset.str.xcnt = 0 ∧
      Startable ⟨.zero, valueD State.reset.cog (.imm 0x640E0002), valueS State.reset.cog (.imm 0x4433), none⟩ State.reset ∧
      Startable ⟨.cont, valueD State.reset.cog (.imm 0x640E0002), valueS State.reset.cog (.imm 0x4433), none⟩ State.reset :=
  ⟨admitted_immediates _ rfl _ _, rfl, startable_byteCommand .zero, startable_byteCommand .cont⟩

theorem witness_XzeroAndXcontFillTheEmptyBuffer :
    CommandAdmitted (.imm 0x640E0002) (.imm 0x4433) (running 0x640E 1 0) ∧ (running 0x640E 1 0).str.xcnt ≠ 0 ∧
      (running 0x640E 1 0).str.xbuf = none :=
  ⟨admitted_immediates _ rfl _ _, by decide, rfl⟩

theorem witness_FullBufferHoldsTheCog :
    CommandAdmitted (.reg 20) (.reg 21) heldState ∧ heldState.str.xcnt ≠ 0 ∧ heldState.str.xbuf.isSome = true ∧
      heldState.sched.due = 0 ∧ fetch heldState = .instr (.xcont (.reg 20) (.reg 21)) :=
  ⟨⟨rfl, rfl, rfl⟩, by decide, rfl, rfl, by decide⟩

theorem witness_HoldIsLiftedOnlyByTheBufferedStart :
    let s := waiting 0x640E 1 0 (byteCommand .zero 0x4433)
    blocked s = true ∧ (nextOf (streamerClock s)).map blocked = some false := by decide

theorem witness_HoldAtZeroFrequencyNeverLifts :
    let s := heldState.withStr { heldState.str with xfrq := 0 }
    CommandAdmitted (.reg 20) (.reg 21) s ∧ fetch s = .instr (.xcont (.reg 20) (.reg 21)) ∧ s.str.xcnt ≠ 0 ∧
      s.str.xbuf.isSome = true ∧ s.str.xfrq = 0 ∧ s.str.runsDds = false :=
  ⟨⟨rfl, rfl, rfl⟩, by decide, by decide, rfl, rfl, rfl⟩

theorem witness_GetxaccMovesAndClearsTheAccumulators : Writable 0 State.reset ∧ Writable 0x1EF State.reset :=
  ⟨writable_low, writable_high⟩

theorem witness_GetxaccFeedsTheNextSOperand :
    ∃ t u : State, exec (.getxacc 15) State.reset = .next t ∧ Writable 10 t ∧ PlainOperand (.reg 11) t ∧
      exec (.xinit (.imm 0x640E0000) (.imm 0)) t = .next u :=
  ⟨_, _, rfl, ⟨by decide, by decide⟩, rfl, rfl⟩

/-- The last conjunct: a value whose low nine bits are 0, as the clauses on XSTOP ask. -/
theorem witness_AugmentedImmediatesMeanTheText :
    State.reset.cog.augs = none ∧ State.reset.cog.augd = none ∧ State.reset.cog.qpend = none ∧
      blocked State.reset = false ∧
      Operand.imm (((0x640E0000 : Word).extractLsb' 0 9).setWidth 32) = .imm 0 := by decide

theorem witness_PrefixWordAfterSetqIsRefused :
    ∃ t u v : State, PlainOperand (.reg 20) State.reset ∧ PlainOperand (.reg 21) State.reset ∧
      exec (.setq (.imm 5)) State.reset = .next t ∧
      exec (.augs 1) t = .next u ∧ exec (.augd 1) t = .next v :=
  ⟨_, _, _, rfl, rfl, rfl, rfl, rfl⟩

theorem witness_SetqFrequencyActsWhenTheCommandStarts :
    (nextOf (exec (.xinit (.imm 0x640E0002) (.imm 0)) State.reset)).isSome = true ∧
      (running 0x640E 1 0).str.xcnt ≠ 0 ∧ (running 0x640E 1 0).str.xbuf = none ∧
      (nextOf (exec (.xzero (.imm 0x640E0002) (.imm 0)) (running 0x640E 1 0))).isSome = true ∧
      rollsOver (ncoStep 0x80000000 0) = true ∧
      (nextOf (streamerClock (waiting 0x640E 1 0 (byteCommand .cont 0)))).isSome = true ∧
      (nextOf (streamerClock (waiting 0x640E 0xFFFF 0 (byteCommand .cont 0)))).isSome = true := by decide

theorem witness_PendingValuesLastOneInstruction :
    (nextOf (exec (.setpiv (.imm 0)) State.reset)).isSome = true ∧ holds (.setpiv (.imm 0)) State.reset = false ∧
      (nextOf (exec (.xzero (.imm 0x640E0002) (.imm 0)) (running 0x640E 1 0))).isSome = true ∧
      holds (.xzero (.imm 0x640E0002) (.imm 0)) (running 0x640E 1 0) = false := by decide

theorem witness_NcoAddsTheFrequencyToTheMaskedPhase : (0x80000000 : Word).toNat ≤ 2 ^ 31 := by decide

theorem witness_FirstRolloverComesOnTheCeilingClock :
    0 < (0x2AAAAAAB : Word).toNat ∧ (0x2AAAAAAB : Word).toNat ≤ 2 ^ 31 ∧
      3 ≤ (2 ^ 31 + (0x2AAAAAAB : Word).toNat - 1) / (0x2AAAAAAB : Word).toNat ∧
      0 < (0x80000000 : Word).toNat ∧ (0x80000000 : Word).toNat ≤ 2 ^ 31 ∧
      1 ≤ (2 ^ 31 + (0x80000000 : Word).toNat - 1) / (0x80000000 : Word).toNat := by decide

theorem witness_StoppedStreamerDoesNothing : State.reset.str.xcnt = 0 ∧ State.reset.dac.csOn = false := by decide

/-- A running command at frequency 0 has no rollover. -/
theorem witness_ClockMovesThePhaseTheCountAndTheItem_no_rollover :
    let s := (running 0x640E 4 0).withStr { (running 0x640E 4 0).str with xfrq := 0 }
    s.str.xcnt ≠ 0 ∧ s.str.runsDds = false ∧ rollsOver (ncoStep s.str.xfrq s.str.xphs) = false := by decide

theorem advanceable_counted :
    Advanceable ((running 0x640E 2 0).withStr { (running 0x640E 2 0).str with xphs := 0x80000000, xcnt := 1 }) := by
  refine ⟨⟨8, 32, false, false⟩, layout_running, fun h => ?_, fun a h => ?_⟩
  · cases h
  · cases h

theorem advanceable_perpetual :
    Advanceable ((running 0x640E 0xFFFF 0).withStr { (running 0x640E 0xFFFF 0).str with xphs := 0x80000000 }) := by
  refine ⟨⟨8, 32, false, false⟩, layout_running, fun h => ?_, fun a h => ?_⟩
  · cases h
  · cases h

theorem witness_ClockMovesThePhaseTheCountAndTheItem :
    (running 0x640E 2 0).str.xcnt ≠ 0 ∧ (running 0x640E 2 0).str.xcnt ≠ 1 ∧ (running 0x640E 2 0).str.xcnt ≠ 0xFFFF ∧
      rollsOver (ncoStep 0x80000000 0) = true ∧
      Advanceable ((running 0x640E 2 0).withStr { (running 0x640E 2 0).str with xphs := 0x80000000, xcnt := 1 }) :=
  ⟨by decide, by decide, by decide, by decide, advanceable_counted⟩

theorem witness_ClockMovesThePhaseTheCountAndTheItem_perpetual :
    (running 0x640E 0xFFFF 0).str.xcnt = 0xFFFF ∧ (running 0x640E 0xFFFF 0).str.xbuf = none ∧
      Advanceable ((running 0x640E 0xFFFF 0).withStr { (running 0x640E 0xFFFF 0).str with xphs := 0x80000000 }) :=
  ⟨rfl, rfl, advanceable_perpetual⟩

theorem witness_FinalRolloverStartsTheBufferedCommand :
    let s := waiting 0x640E 1 0 (byteCommand .zero 0x4433)
    let t := waiting 0x640E 0xFFFF 0 (byteCommand .cont 0x4433)
    rollsOver (ncoStep 0x80000000 0) = true ∧ (running 0x640E 1 0).str.xbuf = none ∧
      s.str.runsDds = false ∧ s.str.xbuf = some (byteCommand .zero 0x4433) ∧ s.str.xcnt = 1 ∧
      Startable (byteCommand .zero 0x4433) (s.withStr { s.str with xphs := 0x80000000, xbuf := none }) ∧
      t.str.runsDds = false ∧ t.str.xbuf = some (byteCommand .cont 0x4433) ∧ t.str.xcnt = 0xFFFF ∧
      Startable (byteCommand .cont 0x4433) (t.withStr { t.str with xphs := 0x80000000, xbuf := none }) := by
  refine ⟨by decide, rfl, by decide, rfl, rfl, .inr ⟨_, rfl, fun h => ?_, fun a h => ?_⟩, by decide, rfl, rfl,
    .inr ⟨_, rfl, fun h => ?_, fun a h => ?_⟩⟩
  · cases h
  · cases h
  · cases h
  · cases h

/-- A Pins/DACs command without lookup: the premise on the lookup base is empty. -/
theorem witness_ImmediateCommandPresentsItsItemsInTurn :
    let s := running 0x640E 7 0x40302010
    s.str.layout = some ⟨8, 32, false, false⟩ ∧
      lutBase (modeOf s.str.xcmd) s.str.xcmd s.str.xsrc = none ∧
      s.str.xfrq = 0x80000000 ∧ s.str.xbuf = none ∧ s.str.xidx = 0 ∧ s.str.xcnt ≠ 0 ∧ s.str.xcnt ≠ 0xFFFF ∧
      7 ≤ s.str.xcnt.toNat := by decide

/-- A command with lookup whose last word is the last of the lookup RAM. -/
theorem witness_ImmediateCommandPresentsItsItemsInTurn_lookup :
    let s := running 0x3008 4 0xFF00FF00
    s.str.layout = some ⟨8, 32, false, false⟩ ∧ s.str.xfrq = 0x80000000 ∧ s.str.xbuf = none ∧ s.str.xidx = 0 ∧
      s.str.xcnt ≠ 0 ∧ s.str.xcnt ≠ 0xFFFF ∧ 4 ≤ s.str.xcnt.toNat ∧
      ∀ b v, lutBase (modeOf s.str.xcmd) s.str.xcmd s.str.xsrc = some b → v < 2 ^ 8 → 32 * b + v < s.par.lutSize := by
  refine ⟨by decide, rfl, rfl, rfl, by decide, by decide, by decide, fun b v hb hv => ?_⟩
  cases hb
  exact (show 32 * 8 + v < 512 by omega)

theorem witness_FifoCommandReadsOneChunkPerItsValues :
    let s := (running 0xA9AD 4 0xA5).withFifo (fifoOf [0xA5, 0x3C])
    s.str.layout = some ⟨4, 8, true, true⟩ ∧ lutBase (modeOf s.str.xcmd) s.str.xcmd s.str.xsrc = none ∧
      s.fifo.rdReady = true ∧ s.str.xfrq = 0x80000000 ∧ s.str.xbuf = none ∧ s.str.xidx = 0 ∧ s.str.xcnt ≠ 0 ∧
      s.str.xcnt ≠ 0xFFFF ∧ 2 < s.str.xcnt.toNat ∧ 4 ≤ s.str.xcnt.toNat := by decide

/-- A LUMA8 command, and a RDFAST lookup command on the highest base. -/
theorem witness_FifoCommandReadsOneChunkPerItsValues_lookup :
    let l := (running 0xBFD2 3 0).withFifo (fifoOf [0x81])
    let s := (running 0x7C05 20 0xF).withFifo (fifoOf [0xA5, 0x3C])
    l.str.layout = some ⟨8, 8, true, false⟩ ∧ lutBase (modeOf l.str.xcmd) l.str.xcmd l.str.xsrc = none ∧
      s.str.layout = some ⟨2, 32, true, true⟩ ∧ s.fifo.rdReady = true ∧ s.str.xfrq = 0x80000000 ∧ s.str.xbuf = none ∧
      s.str.xidx = 0 ∧ s.str.xcnt ≠ 0 ∧ s.str.xcnt ≠ 0xFFFF ∧ 16 ≤ s.str.xcnt.toNat ∧
      ∀ b v, lutBase (modeOf s.str.xcmd) s.str.xcmd s.str.xsrc = some b → v < 2 ^ 2 → 32 * b + v < s.par.lutSize := by
  refine ⟨by decide, by decide, by decide, rfl, rfl, rfl, rfl, by decide, by decide, by decide, fun b v hb hv => ?_⟩
  cases hb
  exact (show 32 * 15 + v < 512 by omega)

theorem witness_UndefinedModesAreTheTwentyThree :
    modeOf 0x3000 = .immLut 8 ∧ modeOf 0x70F1 = .immPins ⟨32, 4, 8, false⟩ ∧ modeOf 0x7007 = .fifoLut 4 true ∧
      modeOf 0xA00F = .fifoPins ⟨16, 4, 4, false⟩ ∧ modeOf 0xB002 = .fifoRgb .luma8 ∧ modeOf 0xF00E = .undefined := by decide

theorem witness_StartIsRefusedExactlyWhereTheSpecRefuses :
    (let c : Command := ⟨.init, 0x70090001, 0, none⟩;
      c.count ≠ 0 ∧ modeOf (c.d.extractLsb' 16 16) = .undefined) ∧
    (let c : Command := ⟨.init, 0xB0030001, 0, none⟩;
      c.count ≠ 0 ∧ modeOf (c.d.extractLsb' 16 16) ≠ .undefined ∧ (modeOf (c.d.extractLsb' 16 16)).layout = none) ∧
    (let c : Command := ⟨.init, 0x800E0001, 0, none⟩;
      c.count ≠ 0 ∧ (modeOf (c.d.extractLsb' 16 16)).layout = some ⟨1, 8, true, true⟩ ∧
        State.reset.fifo.rdReady = false) ∧
    (let c : Command := ⟨.init, 0x30090001, 224, none⟩;
      c.count ≠ 0 ∧ (modeOf (c.d.extractLsb' 16 16)).layout = some ⟨8, 32, false, false⟩ ∧
        (startedState c State.reset).str.lutTarget = some 512 ∧ State.reset.par.lutSize ≤ 512) := by decide

/-- The clause of an accepted start: a count of 0 in an undefined mode, and a first lookup word at the last address. -/
theorem witness_StartIsRefusedExactlyWhereTheSpecRefuses_accepted :
    Startable ⟨.init, 0x70090000, 0, none⟩ State.reset ∧ Startable ⟨.init, 0x30080001, 255, none⟩ State.reset := by
  refine ⟨.inl rfl, .inr ⟨⟨8, 32, false, false⟩, rfl, fun h => ?_, fun a h => ?_⟩⟩
  · cases h
  · cases h
    decide

theorem witness_LookupModesOutputTheAddressedWord :
    modeOf (running 0x3008 1 255).str.xcmd = .immLut 8 ∧ modeOf (running 0x7C05 1 0).str.xcmd = .fifoLut 2 true := by
  decide

theorem witness_DataFieldTakesValuesInOrder :
    2 ≤ 5 ∧ (7 + 1) * 2 ^ 2 ≤ 32 ∧ 2 ≤ 2 ∧ 1 < 8 / 2 ^ 2 ∧ 7 = 3 * (8 / 2 ^ 2) + 1 ∧
      5 ≤ 5 ∧ (0 + 1) * 2 ^ 5 ≤ 32 ∧ 8 ≤ 2 ^ 5 := by decide

theorem witness_ChannelsRepeatTheirFields :
    3 ≤ 3 ∧ 4 ≤ 4 ∧ 7 < 8 ∧ modeOf (running 0x40FF 1 0).str.xcmd = .immPins ⟨1, 1, 1, true⟩ ∧
      modeOf (running 0xB001 1 0).str.xcmd = .fifoPins ⟨32, 4, 8, false⟩ := by decide

theorem witness_LumaPixelsAreColoured : modeOf (running 0xBFD2 3 0).str.xcmd = .fifoRgb .luma8 := by decide

theorem witness_PinGroupsWrapAround : 7 < 8 ∧ 31 < 32 := by decide

theorem witness_NarrowModesResolveTheirPins :
    modeOf 0x40FF = .immPins ⟨1, 1, 1, true⟩ ∧ modeOf 0x50FC = .immPins ⟨2, 2, 1, true⟩ ∧
      modeOf 0xA9AD = .fifoPins ⟨4, 1, 4, true⟩ ∧ modeOf 0xF070 = .pinsIn ⟨16, 2, 8, false⟩ ∧ 63 < 64 ∧ 32 ≤ 32 := by
  decide

theorem witness_PinOutputIsTheOrOfCogAndStreamer :
    let s := running 0x648E 4 1
    0 < 64 ∧ s.str.xcnt ≠ 0 ∧ s.str.outputs = true ∧ eBit s.str.xcmd = true ∧
      (pinBase s.str.xcmd + 0) % 64 = 0 ∧ (pinValue s).getLsbD 0 = true ∧
      modeOf s.str.xcmd = .immPins ⟨8, 1, 8, false⟩ ∧ modeOf (running 0xB001 1 0).str.xcmd = .fifoPins ⟨32, 4, 8, false⟩ ∧
      lutBase (modeOf 0x300F) 0x300F 0 = some 15 ∧ lutBase (modeOf 0x7C05) 0x7C05 15 = some 15 ∧
      modeOf (running 0xBFD2 3 0).str.xcmd = .fifoRgb .luma8 := by decide

theorem witness_OperandRefusals :
    usesOutside { Config.usual with nreg := 16 } (.addpix 10 (.reg 16)) = true ∧
      usesOutside { Config.usual with nreg := 16 } (.addpix 10 (.reg 15)) = false ∧
      usesOutside Config.usual (.addpix 10 (.reg 0x1F0)) = true ∧ usesOutside Config.usual (.getxacc 0x1FF) = true ∧
      usesOutside Config.usual (.addpix 0x1EF (.reg 11)) = false ∧ destination (.addpix 0x1EF (.reg 11)) = some 0x1EF ∧
      (0x1EF : Reg) ∈ ({ State.reset with prog := { text := [], regs := [0x1EF] } } : State).prog.regs := by decide

theorem witness_NoInstructionRaisesAnException :
    refusalOf (exec (.addpix 10 (.reg 0x1F0)) State.reset) = some .notGeneralRegister ∧
      (∃ s : State, step s = .fault .tornFetch) :=
  ⟨by decide, { State.reset with prog := { text := [(0, 0x0B)], regs := [] } }, rfl⟩

theorem witness_InstructionsLeaveOtherRegistersAndMemoryAlone :
    (nextOf (exec (.addpix 10 (.reg 11)) (withRegs [(9, 1), (10, 2), (11, 3)]))).isSome = true ∧
      destination (.addpix 10 (.reg 11)) ≠ some 9 ∧ destination (.addpix 10 (.reg 11)) ≠ some 11 := by decide

theorem witness_UnitsAreWrittenByTheirOwnInstructionsOnly :
    (nextOf (exec (.mulpix 10 (.reg 11)) (running 0x640E 4 0))).isSome = true ∧
      (nextOf (exec (.xcont (.imm 0x640E0002) (.imm 0)) (running 0x640E 4 0))).isSome = true := by decide

theorem witness_ClocksLeaveTheCogAlone :
    (∃ t, systemClock (running 0x640E 4 0x40302010) = .next t) ∧ ∃ t, systemClock State.reset = .next t :=
  ⟨⟨_, rfl⟩, _, rfl⟩

end Sys2Proof.Tests
end

/-! The statements of the family 10_state.md: what an instruction and a clock leave unchanged, and the machine's invariant.
`Completes` says once what a completed instruction can do; the frames and the invariant's step are read off its cases. -/

namespace Sys2Proof.Machine

/-! ### The streamer's registers under its shared operations -/

/-- The first chunk changes of the streamer its data only. -/
theorem loadFirst_str {s t : State} (h : loadFirst s = .next t) : ∃ v, t.str = { s.str with xdat := v } := by
  obtain ⟨l, -, -, ⟨-, rfl⟩ | ⟨-, -, rfl⟩⟩ := loadFirst_next h
  · exact ⟨_, rfl⟩
  · exact ⟨_, rfl⟩

/-- A started command sets the streamer's registers to those of `Streamer.begin`, but for the data. -/
theorem start_str {c : Command} {s t : State} (h : start c s = .next t) :
    ∃ v, t.str = { s.str.begin c with xdat := v } := by
  rcases start_next h with ⟨-, rfl⟩ | ⟨-, h⟩
  · exact ⟨s.str.xdat, rfl⟩
  · exact loadFirst_str h

/-- An advance changes of the streamer its index and its data only. -/
theorem advance_str {s t : State} (h : advance s = .next t) :
    ∃ v, t.str = { s.str with xidx := s.str.xidx + 1, xdat := v } := by
  obtain ⟨l, -, ⟨-, -, h⟩ | ⟨-, h⟩⟩ := advance_next h
  · obtain ⟨-, rfl, -⟩ := loadChunk_next h
    exact ⟨_, rfl⟩
  · obtain ⟨rfl, -⟩ := present_next h
    exact ⟨s.str.xdat, rfl⟩

/-- The accumulators are the same. -/
def SameAccumulators (x y : Streamer) : Prop := y.xacx = x.xacx ∧ y.xacy = x.xacy

theorem start_sameAccumulators {c : Command} {s t : State} (h : start c s = .next t) : SameAccumulators s.str t.str := by
  obtain ⟨v, hv⟩ := start_str h
  simp [SameAccumulators, hv]

theorem advance_sameAccumulators {s t : State} (h : advance s = .next t) : SameAccumulators s.str t.str := by
  obtain ⟨v, hv⟩ := advance_str h
  simp [SameAccumulators, hv]

theorem onRollover_sameAccumulators {s t : State} (h : onRollover s = .next t) : SameAccumulators s.str t.str := by
  rcases onRollover_next h with ⟨c, -, -, h⟩ | ⟨-, -, h⟩ | ⟨-, -, rfl⟩ | ⟨-, -, h⟩
  · exact (start_sameAccumulators h :)
  · exact advance_sameAccumulators h
  · exact ⟨rfl, rfl⟩
  · exact (advance_sameAccumulators h :)

theorem streamerClock_sameAccumulators {s t : State} (h : streamerClock s = .next t) :
    SameAccumulators s.str t.str := by
  rcases streamerClock_next h with ⟨-, rfl⟩ | ⟨-, -, ⟨-, rfl⟩ | ⟨-, h⟩⟩
  · exact ⟨rfl, rfl⟩
  · exact ⟨rfl, rfl⟩
  · exact (onRollover_sameAccumulators h :)

/-! ### What a completed instruction can do -/

/-- XSTOP, XINIT, XZERO or XCONT. -/
def IsStreamerCommand (i : Instr) : Prop :=
  i = .xstop ∨ ∃ d o, i = .xinit d o ∨ i = .xzero d o ∨ i = .xcont d o

/-- What an instruction that answers a next state can have done, one case for each kind of effect. -/
inductive Completes (s : State) : Instr → State → Prop
  | pixel {i : Instr} {d : Reg} (v : Word) (immS : Bool) (hdest : destination i = some d)
      (hgen : outsideGeneral s.par d = false) :
      Completes s i (s.withCog ((s.cog.writeReg d v).retire false immS))
  | setpiv (o : Operand) (v : Byte) :
      Completes s (.setpiv o) ((s.withCog (s.cog.retire (isImmediate o) false)).withMixer { s.mixer with v := v })
  | setpix (o : Operand) (m : BitVec 6) :
      Completes s (.setpix o) ((s.withCog (s.cog.retire (isImmediate o) false)).withMixer { s.mixer with m := m })
  | setdacs (o : Operand) (bg : Channels) :
      Completes s (.setdacs o) ((s.withCog (s.cog.retire (isImmediate o) false)).withDac { s.dac with bg := bg })
  | setxfrq (o : Operand) (v : Word) :
      Completes s (.setxfrq o) ((s.withCog (s.cog.retire (isImmediate o) false)).withStr { s.str with xfrq := v })
  | setq (o : Operand) (v : Word) :
      Completes s (.setq o) (s.withCog { s.cog.retire (isImmediate o) false with qpend := some v })
  /-- A command starts at once: with an empty buffer, or, by XZERO and XCONT, on a stopped streamer. -/
  | started {i : Instr} {c : Command} {u : State} (buf : Option Command) (immD immS : Bool)
      (hcmd : IsStreamerCommand i) (hbuf : buf = none ∨ (s.str.xcnt = 0 ∧ buf = s.str.xbuf))
      (hstart : start c (s.withStr { s.str with xbuf := buf }) = .next u) :
      Completes s i (u.withCog (u.cog.retire immD immS))
  /-- A command takes its place in the buffer behind the running one. -/
  | buffered {i : Instr} {c : Command} (immD immS : Bool) (hcmd : IsStreamerCommand i) (hkind : c.kind ≠ .init)
      (hrun : s.str.xcnt ≠ 0) :
      Completes s i ((s.withStr { s.str with xbuf := some c }).withCog (s.cog.retire immD immS))
  | held {i : Instr} (hheld : holds i s = true) : Completes s i s
  | getxacc {d : Reg} (hgen : outsideGeneral s.par d = false) :
      Completes s (.getxacc d) (readAccumulators d (drawGoertzel s))
  | augs (n : AugBits) : Completes s (.augs n) (s.withCog { s.cog.passAugment with augs := some n })
  | augd (n : AugBits) : Completes s (.augd n) (s.withCog { s.cog.passAugment with augd := some n })

/-- A pixel operation writes its destination. -/
theorem Completes.of_pixelOp {dm sm : Byte → Byte → Byte} {i : Instr} {d : Reg} {o : Operand} {s t : State}
    (hdest : destination i = some d) (h : pixelOp dm sm d o s = .next t) : Completes s i t := by
  obtain ⟨hgen, -, -, rfl⟩ := pixelOp_next h
  exact .pixel _ _ hdest hgen

/-- XINIT and XSTOP start their command over an empty buffer. -/
theorem Completes.of_initCommand {i : Instr} {c : Command} {s u : State} (immD immS : Bool)
    (hcmd : IsStreamerCommand i) (h : initCommand c s = .next u) :
    Completes s i (u.withCog (u.cog.retire immD immS)) := by
  rcases initCommand_next h with ⟨hempty, hstart⟩ | ⟨-, -, hstart⟩
  · have hsame : s.withStr { s.str with xbuf := none } = s := by rw [← hempty]; rfl
    exact .started none immD immS hcmd (.inl rfl) (hsame.symm ▸ hstart)
  · exact .started none immD immS hcmd (.inl rfl) hstart

theorem Completes.of_initWith {i : Instr} {d o : Operand} {s t : State} (hcmd : IsStreamerCommand i)
    (h : initWith d o s = .next t) : Completes s i t := by
  obtain ⟨-, u, hu, rfl⟩ := initWith_next h
  exact .of_initCommand _ _ hcmd hu

theorem Completes.of_execXstop {s t : State} (h : execXstop s = .next t) : Completes s .xstop t := by
  unfold execXstop at h
  split at h
  · exact .of_initWith (.inl rfl) h
  · split at h
    · cases h
    · obtain ⟨u, hu, rfl⟩ := thenRetire_next h
      exact .of_initCommand _ _ (.inl rfl) hu

/-- XZERO and XCONT start on a stopped streamer, are held, or take their place in the buffer. -/
theorem Completes.of_bufferCommand {kind : CmdKind} {i : Instr} {d o : Operand} {s t : State}
    (hcmd : IsStreamerCommand i) (hkind : kind ≠ .init) (hholds : holds i s = blocked s)
    (h : bufferCommand kind d o s = .next t) : Completes s i t := by
  obtain ⟨-, ⟨hstop, u, hu, rfl⟩ | ⟨hheld, rfl⟩ | ⟨hrun, -, rfl⟩⟩ := bufferCommand_next h
  · exact .started s.str.xbuf _ _ hcmd (.inr ⟨hstop, rfl⟩) hu
  · exact .held (hholds.trans hheld)
  · exact .buffered _ _ hcmd hkind hrun

/-- An instruction that answers a next state did one of the things `Completes` lists. -/
theorem exec_next {i : Instr} {s t : State} (h : exec i s = .next t) : Completes s i t := by
  cases i with
  | addpix d o => exact .of_pixelOp rfl h
  | mulpix d o => exact .of_pixelOp rfl h
  | blnpix d o => exact .of_pixelOp rfl h
  | mixpix d o => exact .of_pixelOp rfl h
  | setpiv o =>
    obtain ⟨-, rfl⟩ := withOperand_next (show execSetpiv o s = _ from h)
    exact .setpiv o _
  | setpix o =>
    obtain ⟨-, rfl⟩ := withOperand_next (show execSetpix o s = _ from h)
    exact .setpix o _
  | setdacs o =>
    obtain ⟨-, rfl⟩ := withOperand_next (show execSetdacs o s = _ from h)
    exact .setdacs o _
  | setxfrq o =>
    obtain ⟨-, rfl⟩ := withOperand_next (show execSetxfrq o s = _ from h)
    exact .setxfrq o _
  | setq o =>
    obtain ⟨-, rfl⟩ := withOperand_next (show execSetq o s = _ from h)
    exact .setq o _
  | xinit d o => exact .of_initWith (.inr ⟨d, o, .inl rfl⟩) h
  | xstop => exact .of_execXstop h
  | xzero d o => exact .of_bufferCommand (.inr ⟨d, o, .inr (.inl rfl)⟩) (by decide) rfl h
  | xcont d o => exact .of_bufferCommand (.inr ⟨d, o, .inr (.inr rfl)⟩) (by decide) rfl h
  | getxacc d =>
    obtain ⟨hgen, -, rfl⟩ := execGetxacc_next h
    exact .getxacc hgen
  | augs n =>
    cases h
    exact .augs n
  | augd n =>
    cases h
    exact .augd n

/-! ### The machine's invariant, in the streamer's part and the rest -/

/-- The conjuncts of `MachineInv` that read neither the streamer nor the FIFO: what `SameOutsideStreamer` keeps. -/
def OutsideStreamerSound (s : State) : Prop := StorageSound s ∧ SplitSound s.cog ∧ ParamsSound s.par

/-- The conjuncts of `MachineInv` about the streamer. -/
def StreamerSound (s : State) : Prop := BufferSound s.str ∧ RunningSound s ∧ AccumulatorsSound s

theorem machineInv_iff (s : State) : MachineInv s ↔ OutsideStreamerSound s ∧ StreamerSound s := by
  unfold MachineInv OutsideStreamerSound StreamerSound
  tauto

/-- What `RunningSound` asks of a running command. -/
def ItemSound (s : State) : Prop :=
  (∃ l, s.str.layout = some l ∧ (l.fifo = true → s.fifo.rdReady = true) ∧ (l.fifo = false → s.str.xdat = s.str.xsrc)) ∧
    ∀ a, s.str.lutTarget = some a → a < s.par.lutSize

theorem runningSound_iff (s : State) : RunningSound s ↔ (s.str.xcnt ≠ 0 → ItemSound s) := Iff.rfl

theorem SameOutsideStreamer.keeps_sound {s t : State} (h : SameOutsideStreamer s t) (hs : OutsideStreamerSound s) :
    OutsideStreamerSound t := by
  obtain ⟨hcog, -, -, hlut, hprog, -, hpar, -⟩ := h
  simpa only [OutsideStreamerSound, StorageSound, hcog, hlut, hprog, hpar] using hs

theorem SameAccumulators.keeps_sound {s t : State} (h : SameAccumulators s.str t.str) (hpar : t.par = s.par)
    (hs : AccumulatorsSound s) : AccumulatorsSound t := by
  obtain ⟨hx, hy⟩ := h
  simpa only [AccumulatorsSound, hx, hy, hpar] using hs

theorem bufferSound_of_empty {x : Streamer} (h : x.xbuf = none) : BufferSound x := by
  simp [BufferSound, h]

/-- Behind a stopped streamer nothing waits. -/
theorem BufferSound.empty_of_stopped {x : Streamer} (h : BufferSound x) (hstop : x.xcnt = 0) : x.xbuf = none := by
  cases hbuf : x.xbuf with
  | none => rfl
  | some c => exact absurd hstop (h c hbuf).1

/-- A waiting command still stands behind a running one when the same buffer meets another non-zero count. -/
theorem BufferSound.of_running {x y : Streamer} (h : BufferSound x) (hbuf : y.xbuf = x.xbuf) (hrun : y.xcnt ≠ 0) :
    BufferSound y := fun c hc => ⟨hrun, (h c (hbuf ▸ hc)).2⟩

theorem loadFirst_itemSound {s t : State} (h : loadFirst s = .next t) : ItemSound t := by
  obtain ⟨l, hl, hlut, ⟨hf, rfl⟩ | ⟨hf, hready, rfl⟩⟩ := loadFirst_next h
  · exact ⟨⟨l, hl, by simp [hf], fun _ => rfl⟩, hlut⟩
  · exact ⟨⟨l, hl, fun _ => hready, by simp [hf]⟩, hlut⟩

theorem advance_itemSound {s t : State} (hs : ItemSound s) (h : advance s = .next t) : ItemSound t := by
  obtain ⟨⟨l, hl, hready, hdata⟩, -⟩ := hs
  obtain ⟨l', hl', ⟨hf, -, h⟩ | ⟨-, h⟩⟩ := advance_next h
  · obtain ⟨hr, rfl, hlut⟩ := loadChunk_next h
    exact ⟨⟨l', hl', fun _ => hr, by simp [hf]⟩, hlut⟩
  · obtain ⟨rfl, hlut⟩ := present_next h
    exact ⟨⟨l, hl, hready, hdata⟩, hlut⟩

/-- A start makes the running command sound whatever ran before it. -/
theorem start_runningSound {c : Command} {s t : State} (h : start c s = .next t) : RunningSound t := by
  rcases start_next h with ⟨hzero, rfl⟩ | ⟨-, h⟩
  · exact fun hrun => absurd hzero hrun
  · exact fun _ => loadFirst_itemSound h

theorem start_streamerSound {c : Command} {s t : State} (h : start c s = .next t) (hbuf : s.str.xbuf = none)
    (hacc : AccumulatorsSound s) : StreamerSound t := by
  obtain ⟨-, -, -, -, -, -, hpar, -⟩ := start_same h
  obtain ⟨v, hv⟩ := start_str h
  exact ⟨bufferSound_of_empty (by simp [hv, hbuf]), start_runningSound h,
    (start_sameAccumulators h).keeps_sound hpar hacc⟩

theorem advance_streamerSound {s t : State} (h : advance s = .next t) (hrun : s.str.xcnt ≠ 0) (hs : StreamerSound s) :
    StreamerSound t := by
  obtain ⟨hbuf, hitem, hacc⟩ := hs
  obtain ⟨-, -, -, -, -, -, hpar, -⟩ := advance_same h
  obtain ⟨v, hv⟩ := advance_str h
  exact ⟨hbuf.of_running (by simp [hv]) (by simpa [hv] using hrun), fun _ => advance_itemSound (hitem hrun) h,
    (advance_sameAccumulators h).keeps_sound hpar hacc⟩

/-- Counting down a running command, or moving its phase, leaves the streamer sound while the count is not 0. -/
theorem StreamerSound.with_count_phase {s : State} (hs : StreamerSound s) (hrun : s.str.xcnt ≠ 0) {n : BitVec 16}
    (hn : n ≠ 0) (p : Word) : StreamerSound (s.withStr { s.str with xcnt := n, xphs := p }) := by
  obtain ⟨hbuf, hitem, hacc⟩ := hs
  exact ⟨hbuf.of_running rfl hn, fun _ => hitem hrun, hacc⟩

theorem onRollover_streamerSound {s t : State} (h : onRollover s = .next t) (hrun : s.str.xcnt ≠ 0)
    (hs : StreamerSound s) : StreamerSound t := by
  obtain ⟨-, -, hacc⟩ := id hs
  rcases onRollover_next h with ⟨c, -, -, h⟩ | ⟨-, -, h⟩ | ⟨hempty, -, rfl⟩ | ⟨-, hone, h⟩
  · exact start_streamerSound h rfl hacc
  · exact advance_streamerSound h hrun hs
  · exact ⟨bufferSound_of_empty hempty, fun hrun => absurd rfl hrun, hacc⟩
  · have hcount : s.str.xcnt - 1 ≠ 0 := fun h0 => hone (by bv_omega)
    exact advance_streamerSound h hcount (hs.with_count_phase hrun hcount s.str.xphs)

theorem streamerClock_streamerSound {s t : State} (hs : StreamerSound s) (h : streamerClock s = .next t) :
    StreamerSound t := by
  rcases streamerClock_next h with ⟨-, rfl⟩ | ⟨hrun, -, hphase⟩
  · exact hs
  · have hmoved := hs.with_count_phase hrun hrun (ncoStep s.str.xfrq s.str.xphs)
    rcases hphase with ⟨-, rfl⟩ | ⟨-, h⟩
    · exact hmoved
    · exact onRollover_streamerSound h hrun hmoved

theorem systemClock_machineInv {s t : State} (hs : MachineInv s) (h : systemClock s = .next t) : MachineInv t := by
  obtain ⟨hout, hstr⟩ := (machineInv_iff _).1 hs
  exact (machineInv_iff _).2
    ⟨(streamerClock_same (s := samplePinInputs s) h).keeps_sound hout,
      streamerClock_streamerSound (s := samplePinInputs s) hstr h⟩

theorem OutsideStreamerSound.regs_wf {s : State} (hs : OutsideStreamerSound s) :
    Bank.wf s.par.nreg s.cog.regs = true := by
  obtain ⟨⟨hregs, -, -⟩, -, -⟩ := hs
  exact hregs

/-- Another cog keeps these conjuncts when its registers are canonical and its SETQ mark is sound. -/
theorem OutsideStreamerSound.withCog {s : State} (hs : OutsideStreamerSound s) {c : Cog}
    (hregs : Bank.wf s.par.nreg c.regs = true) (hsplit : SplitSound c) : OutsideStreamerSound (s.withCog c) := by
  obtain ⟨⟨-, hlut, htext⟩, -, hpar⟩ := hs
  exact ⟨⟨hregs, hlut, htext⟩, hsplit, hpar⟩

theorem splitSound_of_unset {c : Cog} (h : c.qSplit = false) : SplitSound c := by
  simp [SplitSound, h]

theorem exec_outsideStreamerSound {i : Instr} {s t : State} (hs : OutsideStreamerSound s) (h : exec i s = .next t) :
    OutsideStreamerSound t := by
  have hregs := hs.regs_wf
  have hretired (immD immS : Bool) : OutsideStreamerSound (s.withCog (s.cog.retire immD immS)) :=
    hs.withCog hregs (splitSound_of_unset rfl)
  cases exec_next h with
  | pixel v immS _ hgen =>
    exact hs.withCog (Bank.write_wf v hregs (lt_nreg_of_general hgen)) (splitSound_of_unset rfl)
  | setpiv o v => exact hretired _ _
  | setpix o m => exact hretired _ _
  | setdacs o bg => exact hretired _ _
  | setxfrq o v => exact hretired _ _
  | setq o v => exact hs.withCog hregs (splitSound_of_unset rfl)
  | started buf immD immS _ _ hstart =>
    have hu := (start_same hstart).of_withStr.keeps_sound hs
    exact hu.withCog hu.regs_wf (splitSound_of_unset rfl)
  | buffered immD immS _ _ _ => exact hretired _ _
  | held _ => exact hs
  | getxacc hgen =>
    exact hs.withCog (Bank.write_wf _ hregs (lt_nreg_of_general hgen)) (splitSound_of_unset rfl)
  | augs n => exact hs.withCog hregs fun hsplit => hsplit
  | augd n => exact hs.withCog hregs fun hsplit => hsplit

theorem exec_streamerSound {i : Instr} {s t : State} (hs : StreamerSound s) (h : exec i s = .next t) :
    StreamerSound t := by
  obtain ⟨hbuf, hrunning, hacc⟩ := hs
  cases exec_next h with
  | started buf immD immS _ hempty hstart =>
    have hnone : buf = none := by
      rcases hempty with hnone | ⟨hstop, hkept⟩
      · exact hnone
      · exact hkept.trans (hbuf.empty_of_stopped hstop)
    exact (start_streamerSound hstart hnone hacc :)
  | buffered immD immS _ hkind hrun =>
    refine ⟨fun c hc => ?_, hrunning, hacc⟩
    cases hc
    exact ⟨hrun, hkind⟩
  | getxacc _ => exact ⟨hbuf, hrunning, Nat.two_pow_pos _, Nat.two_pow_pos _⟩
  | pixel | setpiv | setpix | setdacs | setxfrq | setq | held | augs | augd => exact ⟨hbuf, hrunning, hacc⟩

theorem exec_machineInv {i : Instr} {s t : State} (hs : MachineInv s) (h : exec i s = .next t) : MachineInv t := by
  obtain ⟨hout, hstr⟩ := (machineInv_iff _).1 hs
  exact (machineInv_iff _).2 ⟨exec_outsideStreamerSound hout h, exec_streamerSound hstr h⟩

/-- Settles O4: a step is a system clock or a completed instruction, and the scheduling part is no part of the invariant. -/
theorem stepKeepsTheMachineInvariant : Obligations.StepKeepsTheMachineInvariant := by
  intro s t hs h
  rcases step_next h with ⟨-, h⟩ | ⟨-, -, h⟩ | ⟨-, i, u, -, hu, rfl⟩
  · exact systemClock_machineInv (s := s.withSched { s.sched with due := s.sched.due - 1 }) hs h
  · exact systemClock_machineInv hs h
  · exact (exec_machineInv hs hu :)

/-! ### Completion and frames -/

/-- Settles O38: the completion of each kind of effect. -/
theorem pendingValuesLastOneInstruction : Obligations.PendingValuesLastOneInstruction := by
  intro i s t h hfree
  cases exec_next h with
  | pixel | setpiv | setpix | setdacs | setxfrq | buffered => exact ⟨rfl, .inr (.inr rfl), .inr (.inr rfl)⟩
  | setq o v => exact ⟨rfl, .inl ⟨o, rfl⟩, .inr (.inr rfl)⟩
  | started buf immD immS _ _ hstart =>
    have hcog : _ = s.cog := (start_same hstart).1
    exact ⟨congrArg (·.pc + 1) hcog, .inr (.inr rfl), .inr (.inr rfl)⟩
  | held hheld => exact absurd hheld (by simp [hfree])
  | @getxacc d _ => exact ⟨rfl, .inr (.inr rfl), .inl ⟨d, rfl⟩⟩
  | augs n => exact ⟨rfl, .inr (.inl ⟨n, .inl rfl⟩), .inr (.inl ⟨n, .inl rfl⟩)⟩
  | augd n => exact ⟨rfl, .inr (.inl ⟨n, .inr rfl⟩), .inr (.inl ⟨n, .inr rfl⟩)⟩

/-- A command with an operand outside the general registers is refused before anything else. -/
theorem commandRefusal_outside {d o : Operand} {s : State}
    (h : (namesOutside s.par d || namesOutside s.par o) = true) :
    commandRefusal d o s = some .notGeneralRegister := if_pos h

theorem initWith_outside {d o : Operand} {s : State} (h : (namesOutside s.par d || namesOutside s.par o) = true) :
    initWith d o s = .refused .notGeneralRegister := by
  simp only [initWith, commandRefusal_outside h]

theorem bufferCommand_outside {kind : CmdKind} {d o : Operand} {s : State}
    (h : (namesOutside s.par d || namesOutside s.par o) = true) :
    bufferCommand kind d o s = .refused .notGeneralRegister := by
  simp only [bufferCommand, commandRefusal_outside h]

theorem exec_outside {i : Instr} {s : State} (h : usesOutside s.par i = true) :
    exec i s = .refused .notGeneralRegister := by
  cases i with
  | addpix d o | mulpix d o | blnpix d o | mixpix d o => exact if_pos h
  | setpiv o | setpix o | setdacs o | setxfrq o | setq o => exact if_pos h
  | xinit d o => exact initWith_outside h
  | xzero d o | xcont d o => exact bufferCommand_outside h
  | getxacc d => exact if_pos h
  | xstop | augs n | augd n => cases h

theorem pixelOp_programText {dm sm : Byte → Byte → Byte} {d : Reg} {o : Operand} {s : State}
    (hplain : (outsideGeneral s.par d || namesOutside s.par o) = false) (hmem : d ∈ s.prog.regs) :
    pixelOp dm sm d o s = .refused .writeToProgramText := by
  simp [pixelOp, hplain, hmem]

theorem exec_programText {i : Instr} {d : Reg} {s : State} (hplain : usesOutside s.par i = false)
    (hdest : destination i = some d) (hmem : d ∈ s.prog.regs) : exec i s = .refused .writeToProgramText := by
  cases i with
  | addpix | mulpix | blnpix | mixpix =>
    cases hdest
    exact pixelOp_programText hplain hmem
  | getxacc _ =>
    cases hdest
    have hplain : outsideGeneral s.par d = false := hplain
    simp [exec, execGetxacc, hplain, hmem]
  | setpiv | setpix | setdacs | setxfrq | setq | xinit | xstop | xzero | xcont | augs | augd => cases hdest

/-- Settles O56: the refusals stand before every effect. -/
theorem operandRefusals : Obligations.OperandRefusals :=
  ⟨fun _ _ h => exec_outside h, fun _ _ _ => exec_programText⟩

/-- Settles O58: only a destination is written, and only a start consumes bytes of the FIFO. -/
theorem instructionsLeaveOtherRegistersAndMemoryAlone : Obligations.InstructionsLeaveOtherRegistersAndMemoryAlone := by
  intro i s t h
  cases exec_next h with
  | @pixel _ d v immS hdest _ =>
    refine ⟨fun n hn => Cog.readReg_writeReg_other s.cog v fun e => hn (e ▸ hdest), ?_⟩
    simp
  | @getxacc d _ =>
    refine ⟨fun n hn => Cog.readReg_writeReg_other s.cog _ fun e => hn (e ▸ rfl), ?_⟩
    simp
  | started buf immD immS _ _ hstart =>
    obtain ⟨hcog, -, -, hlut, hprog, -, -, n, hfifo⟩ := start_same hstart
    simp [Cog.readReg, hcog, hlut, hprog, hfifo]
  | setpiv | setpix | setdacs | setxfrq | setq | buffered | held | augs | augd => simp [Cog.readReg]

/-- Settles O59: each unit's part of the state stands in the effects of its own instructions only. -/
theorem unitsAreWrittenByTheirOwnInstructionsOnly : Obligations.UnitsAreWrittenByTheirOwnInstructionsOnly := by
  intro i s t h
  cases exec_next h with
  | started buf immD immS hcmd _ hstart =>
    obtain ⟨-, hmixer, hdac, -, -, -, hpar, -⟩ := start_same hstart
    exact ⟨.inl (congrArg (·.v) hmixer), .inl (congrArg (·.m) hmixer), .inl hdac, .inr (.inr hcmd), hpar, .inr hcmd,
      .inl (start_sameAccumulators hstart :)⟩
  | buffered immD immS hcmd _ _ => simpa using .inr hcmd
  | pixel | setpiv | setpix | setdacs | setxfrq | setq | held | getxacc | augs | augd => simp

/-- Settles O60: the clock samples the pins, and then the streamer changes only its own part and the FIFO's position. -/
theorem clocksLeaveTheCogAlone : Obligations.ClocksLeaveTheCogAlone := by
  intro s t h
  obtain ⟨hcog, hmixer, hdac, hlut, hprog, -, hpar, n, hfifo⟩ := streamerClock_same (s := samplePinInputs s) h
  obtain ⟨hx, hy⟩ := streamerClock_sameAccumulators (s := samplePinInputs s) h
  exact ⟨⟨_, _, hcog⟩, hmixer, hdac, hlut, hprog, congrArg (·.wr) hfifo, congrArg (·.rd) hfifo, hpar, hx, hy⟩

/-! ### The interleaving of turns and clocks -/

/-- A word has four bytes. -/
theorem length_of_decode {bs rest : List Byte} {i : Instr} (h : decode bs = .instr i rest) : 4 ≤ bs.length := by
  match bs, h with
  | _ :: _ :: _ :: _ :: _, _ => simp

theorem decodeFetched_of_decode {bs rest : List Byte} {i : Instr} (hcond : conditionAdmitted (leWord bs) = true)
    (h : decode bs = .instr i rest) : decodeFetched bs = .instr i := by
  have hlen := length_of_decode h
  cases bs with
  | nil => simp at hlen
  | cons b bs => simp only [decodeFetched, Nat.not_lt.2 hlen, if_false, hcond, if_true, h]

theorem step_of_turn {s : State} {i : Instr} (hdue : s.sched.due = 0) (h : fetch s = .instr i) :
    step s = cogTurn i s := by
  simp only [step, hdue, if_true, h]

theorem step_of_due {s : State} (hdue : s.sched.due ≠ 0) : step s = dueClock s := if_neg hdue

theorem step_of_ended {s : State} (hdue : s.sched.due = 0) (h : fetch s = .ended) : step s = systemClock s := by
  simp only [step, hdue, if_true, h]

theorem fetch_ended {s : State} (h : Memory.read s.prog.text s.cog.fetchAddr = none) : fetch s = .ended := by
  simp only [fetch, Memory.readRun, h, decodeFetched]

/-- Settles O8: the turn carries each answer of `exec`. -/
theorem stepRunsTheDecodedInstruction : Obligations.StepRunsTheDecodedInstruction := by
  intro s i bs rest hdue hbs hcond hdec
  have hfetch : fetch s = .instr i := (congrArg decodeFetched hbs).trans (decodeFetched_of_decode hcond hdec)
  rw [step_of_turn hdue hfetch]
  refine ⟨fun t ht => ?_, fun f hf => ?_, fun r hr => ?_⟩
  · simp only [cogTurn, ht, endTurn]
  · simp only [cogTurn, hf]
  · simp only [cogTurn, hr]

/-- Settles O9: a due clock, and the fetch that finds no byte. -/
theorem clocksPassBetweenTurnsAndAfterTheEnd : Obligations.ClocksPassBetweenTurnsAndAfterTheEnd :=
  ⟨fun _ hdue => step_of_due hdue, fun _ hdue hread => step_of_ended hdue (fetch_ended hread)⟩

end Sys2Proof.Machine

/-! The statement of the family 20_memory.md: the order in which the FIFO delivers and takes the bytes of a value (R55, R57). -/

namespace Sys2Proof.Machine

/-! ### The bytes of a word and the word of bytes -/

/-- A less significant byte goes below the value of the bytes after it, whatever their width. -/
theorem leWord_cons_of_eq {w : Nat} {x : BitVec w} {bs : List Byte} (b : Byte) (h : leWord bs = x.setWidth 32) :
    leWord (b :: bs) = (x ++ b).setWidth 32 := by
  ext k hk
  simp only [leWord, h]
  by_cases hlow : k < 8
  · simp [BitVec.getLsbD_append, hlow]
  · have hbeyond : b.getLsbD k = false := BitVec.getLsbD_of_ge b k (Nat.le_of_not_lt hlow)
    simp [BitVec.getLsbD_append, hlow, hbeyond]

theorem leWord_one (b : Byte) : leWord [b] = b.setWidth 32 := by
  simp [leWord]

theorem leWord_two (b0 b1 : Byte) : leWord [b0, b1] = (b1 ++ b0 : BitVec 16).setWidth 32 :=
  leWord_cons_of_eq b0 (leWord_one b1)

theorem leWord_four (b0 b1 b2 b3 : Byte) : leWord [b0, b1, b2, b3] = pack b3 b2 b1 b0 := by
  have hthree : leWord [b1, b2, b3] = (b3 ++ b2 ++ b1).setWidth 32 := leWord_cons_of_eq b1 (leWord_two b2 b3)
  have hfour : leWord [b0, b1, b2, b3] = (pack b3 b2 b1 b0).setWidth 32 := leWord_cons_of_eq b0 hthree
  simpa using hfour

theorem byteAt_ushiftRight (v : Word) (k : Nat) : byteAt (v >>> 8) k = byteAt v (k + 1) := by
  ext j hj
  simp only [byteAt, BitVec.getElem_extractLsb', BitVec.getLsbD_ushiftRight]
  congr 1
  omega

/-- The bytes of a word in the usual order are `byte(v, 0)`, `byte(v, 1)` and so on (00_scope.md R9). -/
theorem leBytes_eq_map (n : Nat) (v : Word) : leBytes n v = (List.range n).map (byteAt v) := by
  induction n generalizing v with
  | zero => rfl
  | succ n ih =>
    have hhead : v.setWidth 8 = byteAt v 0 := by simp [byteAt, BitVec.setWidth_eq_extractLsb']
    have htail : leBytes n (v >>> 8) = (List.range n).map (byteAt v ∘ Nat.succ) := by
      simp [ih, byteAt_ushiftRight]
    rw [leBytes, hhead, htail, List.range_succ_eq_map, List.map_cons, List.map_map]

/-! ### The byte order of the FIFO -/

theorem Fifo.bytes_one (f : Fifo) (i : Nat) : f.bytes i 1 = [f.byte i] := rfl

theorem Fifo.bytes_two (f : Fifo) (i : Nat) : f.bytes i 2 = [f.byte i, f.byte (i + 1)] := rfl

theorem Fifo.bytes_four (f : Fifo) (i : Nat) :
    f.bytes i 4 = [f.byte i, f.byte (i + 1), f.byte (i + 2), f.byte (i + 3)] := rfl

/-- A single byte has no order. -/
theorem Fifo.valueAt_one (f : Fifo) (order : HubOrder) (i : Nat) :
    f.valueAt order i 1 = (f.byte i).setWidth 32 := by
  rw [Fifo.valueAt, f.bytes_one]
  cases order with
  | little => exact leWord_one (f.byte i)
  | big => exact leWord_one (f.byte i)

theorem orderedBytes_one (order : HubOrder) (v : Word) : orderedBytes order 1 v = [byteAt v 0] := by
  cases order with
  | little => exact leBytes_eq_map 1 v
  | big => exact congrArg List.reverse (leBytes_eq_map 1 v)

/-- Settles O52: a read joins the next bytes of the stream and a write appends the bytes of the value, least significant
first, or both the other way round. -/
theorem fifoIsLittleEndian : Obligations.FifoIsLittleEndian := by
  refine ⟨rfl, fun f order i n v => ⟨rfl, f.valueAt_one order i, ?read2, ?read4, ?bigRead2, ?bigRead4, ?write1, ?write2,
    ?write4, ?bigWrite2, ?bigWrite4⟩⟩
  case read2 => rw [Fifo.valueAt, f.bytes_two, orderedWord_little, leWord_two]
  case read4 => rw [Fifo.valueAt, f.bytes_four, orderedWord_little, leWord_four]
  case bigRead2 => rw [Fifo.valueAt, f.bytes_two, orderedWord_big]; exact leWord_two _ _
  case bigRead4 => rw [Fifo.valueAt, f.bytes_four, orderedWord_big]; exact leWord_four _ _ _ _
  case write1 => rw [Fifo.write_wr, orderedBytes_one]
  case write2 => rw [Fifo.write_wr, orderedBytes_little, leBytes_eq_map]; rfl
  case write4 => rw [Fifo.write_wr, orderedBytes_little, leBytes_eq_map]; rfl
  case bigWrite2 => rw [Fifo.write_wr, orderedBytes_big, leBytes_eq_map]; rfl
  case bigWrite4 => rw [Fifo.write_wr, orderedBytes_big, leBytes_eq_map]; rfl

end Sys2Proof.Machine

/-! The statements of the family 30_encoding.md, first part: the decoder against the encoder. A word is read by the one row
of the opcode map that matches it, XSTOP before XINIT; a row fixes the fields its mask covers, and the other fields are the
operands. -/

namespace Sys2Proof

/-! ### The row that reads a word -/

theorem Op.matchesWord_iff {w : Word} {op : Op} : op.matchesWord w = true ↔ w &&& op.mask = op.pattern := beq_iff_eq

/-- Two rows that match one word agree on the bits both masks cover. -/
theorem Op.patterns_agree {w : Word} {a b : Op} (ha : a.matchesWord w = true) (hb : b.matchesWord w = true) :
    a.pattern &&& b.mask = b.pattern &&& a.mask := by
  rw [← matchesWord_iff.1 ha, ← matchesWord_iff.1 hb, BitVec.and_assoc, BitVec.and_assoc, BitVec.and_comm a.mask]

/-- Two rows of the map share no word, but for XSTOP, which is searched before XINIT (30_encoding.md R84). -/
theorem Op.all_disjoint :
    Op.all.Pairwise fun a b => a.pattern &&& b.mask ≠ b.pattern &&& a.mask ∨ (a = .xstop ∧ b = .xinit) := by
  decide

theorem Op.mem_all (op : Op) : op ∈ Op.all := by
  cases op <;> decide

/-- The row matches the word, and the word is not XSTOP's when the row is XINIT's. -/
def Op.reads (w : Word) (op : Op) : Prop := op.matchesWord w = true ∧ (op = .xinit → Op.xstop.matchesWord w = false)

/-- The search stops before a later row that matches as well only at XSTOP, before XINIT. -/
theorem Op.find_before {w : Word} {a b : Op} {before after : List Op} (hall : Op.all = before ++ a :: after)
    (hb : b ∈ after) (ha : a.matchesWord w = true) (hmatch : b.matchesWord w = true) : a = .xstop ∧ b = .xinit := by
  have hpair := Op.all_disjoint
  rw [hall, List.pairwise_append] at hpair
  obtain ⟨-, hafter, -⟩ := hpair
  exact (List.rel_of_pairwise_cons hafter hb).resolve_left fun hne => hne (patterns_agree ha hmatch)

/-- The search finds the row that reads the word. -/
theorem Op.find_eq_some_iff {w : Word} {op : Op} : Op.all.find? (Op.matchesWord w) = some op ↔ op.reads w := by
  constructor
  · intro h
    obtain ⟨hmatch, before, after, hall, hbefore⟩ := List.find?_eq_some_iff_append.1 h
    refine ⟨hmatch, fun hop => ?_⟩
    have hmem := Op.mem_all .xstop
    rw [hall, List.mem_append, List.mem_cons] at hmem
    rcases hmem with hmem | hmem | hmem
    · simpa using hbefore _ hmem
    · simp [← hmem] at hop
    · by_contra hstop
      have := Op.find_before hall hmem hmatch (by simpa using hstop)
      simp at this
  · rintro ⟨hmatch, hxstop⟩
    obtain ⟨found, hfound⟩ := Option.isSome_iff_exists.1 (List.find?_isSome.2 ⟨op, op.mem_all, hmatch⟩)
    obtain ⟨hfoundMatch, before, after, hall, hbefore⟩ := List.find?_eq_some_iff_append.1 hfound
    have hmem := op.mem_all
    rw [hall, List.mem_append, List.mem_cons] at hmem
    rcases hmem with hmem | rfl | hmem
    · simpa [hmatch] using hbefore op hmem
    · exact hfound
    · obtain ⟨rfl, hop⟩ := Op.find_before hall hmem hfoundMatch hmatch
      simp [hxstop hop] at hfoundMatch

/-- The decoder builds the instruction of the row that reads the word. -/
theorem decodeWord_eq_some_iff {w : Word} {i : Instr} :
    decodeWord w = some i ↔ ∃ op : Op, op.reads w ∧ op.build w = i := by
  simp only [decodeWord, Option.map_eq_some_iff, Op.find_eq_some_iff]

/-- A row fixes every field that its mask covers. -/
theorem Op.field_of_matches {w : Word} {op : Op} (h : op.matchesWord w = true) (start : Nat) {len : Nat}
    {v : BitVec len}
    (hrow : op.mask.extractLsb' start len = BitVec.allOnes len ∧ op.pattern.extractLsb' start len = v) :
    w.extractLsb' start len = v := by
  obtain ⟨hmask, hpattern⟩ := hrow
  rw [← hpattern, ← matchesWord_iff.1 h, BitVec.extractLsb'_and, hmask, BitVec.and_allOnes]

/-! ### Operands and their fields -/

@[simp] theorem selector_operandOf (b : Bool) (f : BitVec 9) : (operandOf b f).selector = BitVec.ofBool b := by
  cases b <;> rfl

@[simp] theorem field_operandOf (b : Bool) (f : BitVec 9) : (operandOf b f).field = f := by
  cases b with
  | false => rfl
  | true => simp [operandOf, Operand.field]

/-- An operand read from a word fits it. -/
@[simp] theorem fits_operandOf (b : Bool) (f : BitVec 9) : (operandOf b f).fits 9 = true := by
  cases b with
  | false => rfl
  | true =>
    simp only [operandOf, if_true, Operand.fits, decide_eq_true_eq, BitVec.toNat_setWidth]
    omega

theorem operandOf_true_zero : operandOf true 0 = .imm 0 := rfl

section encoded

variable (op : BitVec 7) (c z : BitVec 1) (d : BitVec 9) {o e : Operand}

/-- The S operand of an encoded word of formats DS and LDS. -/
theorem operandS_fieldsWord (h : o.fits 9 = true) : operandS (fieldsWord op c z o.selector d o.field) = o := by
  rw [operandS, fieldsWord_bit18, fieldS_fieldsWord, operandOf_selector_field o h]

/-- The D operand of an encoded word of format LDS. -/
theorem operandDofLDS_fieldsWord (h : e.fits 9 = true) (i : BitVec 1) (s : BitVec 9) :
    operandDofLDS (fieldsWord op c e.selector i e.field s) = e := by
  rw [operandDofLDS, fieldsWord_bit19, fieldD_fieldsWord, operandOf_selector_field e h]

/-- The D operand of an encoded word of format D1. -/
theorem operandDofD1_fieldsWord (h : e.fits 9 = true) (s : BitVec 9) :
    operandDofD1 (fieldsWord op c z e.selector e.field s) = e := by
  rw [operandDofD1, fieldsWord_bit18, fieldD_fieldsWord, operandOf_selector_field e h]

end encoded

/-! ### From the instruction to its word and back -/

/-- The row of the opcode map that an instruction is encoded by. -/
def Instr.row : Instr → Op
  | .addpix _ _ => .addpix
  | .mulpix _ _ => .mulpix
  | .blnpix _ _ => .blnpix
  | .mixpix _ _ => .mixpix
  | .setpiv _ => .setpiv
  | .setpix _ => .setpix
  | .setdacs _ => .setdacs
  | .setxfrq _ => .setxfrq
  | .setq _ => .setq
  | .xinit _ _ => .xinit
  | .xstop => .xstop
  | .xzero _ _ => .xzero
  | .xcont _ _ => .xcont
  | .getxacc _ => .getxacc
  | .augs _ => .augs
  | .augd _ => .augd

/-- The mask of GETXACC leaves the opcode, bits 20:18 and the S field. -/
theorem fieldsWord_and_getxaccMask (op : BitVec 7) (c z i : BitVec 1) (d s : BitVec 9) :
    fieldsWord op c z i d s &&& 0x0FFC01FF = (0#4 ++ op ++ c ++ z ++ i ++ 0#9 ++ s : BitVec 32) := by
  apply BitVec.eq_of_getLsbD_eq
  intro k hk
  simp only [fieldsWord, BitVec.getLsbD_append, BitVec.getLsbD_and]
  interval_cases k <;> simp

/-- The mask of AUGS and AUGD leaves the five bits above the 23 they carry. -/
theorem augmentWord_and_mask (op : BitVec 5) (n : AugBits) :
    (0xF#4 ++ op ++ n : BitVec 32) &&& 0x0F800000 = (0#4 ++ op ++ 0#23 : BitVec 32) := by
  apply BitVec.eq_of_getLsbD_eq
  intro k hk
  simp only [BitVec.getLsbD_append, BitVec.getLsbD_and]
  interval_cases k <;> simp

theorem fieldN_augmentWord (op : BitVec 5) (n : AugBits) : fieldN (0xF#4 ++ op ++ n : BitVec 32) = n := by
  rw [fieldN, BitVec.extractLsb'_append_eq_right]

theorem row_matches_encode (i : Instr) : i.row.matchesWord (encode i) = true := by
  rw [Op.matchesWord_iff]
  cases i with
  | addpix d o | mulpix d o | blnpix d o | mixpix d o => exact fieldsWord_and_dsMask _ _ _ _ _ _
  | setpiv o | setpix o | setdacs o | setxfrq o | setq o => exact fieldsWord_and_d1Mask _ _ _ _ _ _
  | xinit d o | xzero d o | xcont d o => exact fieldsWord_and_ldsMask _ _ _ _ _ _
  | xstop => decide
  | getxacc d => exact fieldsWord_and_getxaccMask 0b1101011#7 0 0 0 d 0b000011110#9
  | augs n | augd n => exact augmentWord_and_mask _ n

theorem build_encode {i : Instr} (h : i.wellFormed = true) : i.row.build (encode i) = i := by
  cases i with
  | addpix d o | mulpix d o | blnpix d o | mixpix d o =>
    simp only [Instr.row, Op.build, encode, encodeDS, fieldD_fieldsWord, operandS_fieldsWord _ _ _ _ h]
  | setpiv o | setpix o | setdacs o | setxfrq o | setq o =>
    simp only [Instr.row, Op.build, encode, encodeD1, operandDofD1_fieldsWord _ _ _ h]
  | xinit d o =>
    simp only [Instr.wellFormed_eq, Instr.fitsWord, Bool.and_eq_true] at h
    obtain ⟨⟨hd, ho⟩, -⟩ := h
    simp only [Instr.row, Op.build, encode, encodeLDS, operandDofLDS_fieldsWord _ _ hd, operandS_fieldsWord _ _ _ _ ho]
  | xzero d o | xcont d o =>
    simp only [Instr.wellFormed_eq, Instr.fitsWord, Bool.and_eq_true] at h
    obtain ⟨hd, ho⟩ := h
    simp only [Instr.row, Op.build, encode, encodeLDS, operandDofLDS_fieldsWord _ _ hd, operandS_fieldsWord _ _ _ _ ho]
  | xstop => rfl
  | getxacc d => simp only [Instr.row, Op.build, encode, encodeD1, fieldD_fieldsWord, Operand.field]
  | augs n | augd n => simp only [Instr.row, Op.build, encode, fieldN_augmentWord]

/-- The word of XSTOP has the operands of `XINIT #0,#0`. -/
theorem operands_of_xstop {w : Word} (h : Op.xstop.matchesWord w = true) :
    operandDofLDS w = .imm 0 ∧ operandS w = .imm 0 := by
  have hbit (k : Nat) (hk : w.extractLsb' k 1 = 1) : w.getLsbD k = true := by
    simpa using congrArg (·.getLsbD 0) hk
  have hL := hbit 19 (Op.field_of_matches h 19 (by decide))
  have hI := hbit 18 (Op.field_of_matches h 18 (by decide))
  have hD : fieldD w = 0 := Op.field_of_matches h 9 (by decide)
  have hS : fieldS w = 0 := Op.field_of_matches h 0 (by decide)
  simp only [operandDofLDS, operandS, hL, hI, hD, hS, operandOf_true_zero, and_self]

/-- The word of a well-formed instruction is read by the instruction's own row. -/
theorem row_reads_encode {i : Instr} (h : i.wellFormed = true) : i.row.reads (encode i) := by
  refine ⟨row_matches_encode i, fun hrow => ?_⟩
  cases i with
  | xinit d o =>
    by_contra hstop
    obtain ⟨hD, hS⟩ := operands_of_xstop (by simpa using hstop)
    have hbuild : Instr.xinit _ _ = Instr.xinit d o := build_encode h
    rw [hD, hS] at hbuild
    rw [← hbuild] at h
    exact absurd h (by decide)
  | addpix | mulpix | blnpix | mixpix | setpiv | setpix | setdacs | setxfrq | setq | xstop | xzero | xcont | getxacc
  | augs | augd => cases hrow

theorem decodeWord_encode {i : Instr} (h : i.wellFormed = true) : decodeWord (encode i) = some i :=
  decodeWord_eq_some_iff.2 ⟨i.row, row_reads_encode h, build_encode h⟩

theorem decode_leBytes {w : Word} {i : Instr} (h : decodeWord w = some i) (rest : List Byte) :
    decode (Machine.leBytes 4 w ++ rest) = .instr i rest := by
  have hword : decodeWord (Machine.leWord (Machine.leBytes 4 w)) = some i := by rw [leWord_leBytes, h]
  simp only [Machine.leBytes] at hword
  simp only [Machine.leBytes, List.cons_append, List.nil_append, decode, hword]

/-- Settles O5: the bytes make up the word, which the instruction's own row reads. -/
theorem decodeOfEncodeIsTheInstruction : Obligations.DecodeOfEncodeIsTheInstruction :=
  fun _ rest h => decode_leBytes (decodeWord_encode h) rest

/-! ### From a word to its instruction and back -/

theorem ofBool_getLsbD (w : Word) (k : Nat) : BitVec.ofBool (w.getLsbD k) = w.extractLsb' k 1 := by
  ext j hj
  obtain rfl : j = 0 := by omega
  simp

/-- A word with condition `1111` is made up of its fields. -/
theorem fieldsWord_of_fields {w : Word} (hcond : Machine.conditionAdmitted w = true) :
    fieldsWord (w.extractLsb' 21 7) (w.extractLsb' 20 1) (w.extractLsb' 19 1) (w.extractLsb' 18 1) (fieldD w) (fieldS w) =
      w := by
  have hfield : w.extractLsb' 28 4 = 0xF#4 := by simpa [Machine.conditionAdmitted, Machine.conditionField] using hcond
  rw [fieldsWord, fieldD, fieldS, ← hfield]
  simp only [BitVec.extractLsb'_append_extractLsb'_eq_extractLsb']
  exact BitVec.extractLsb'_eq_self

section fromWord

variable {w : Word} (hcond : Machine.conditionAdmitted w = true)

include hcond

theorem encodeDS_of_fields {c z : BitVec 1} (hop : w.extractLsb' 21 7 = 0b1010010#7) (hc : w.extractLsb' 20 1 = c)
    (hz : w.extractLsb' 19 1 = z) : encodeDS c z (fieldD w) (operandS w) = w := by
  rw [encodeDS, operandS, selector_operandOf, field_operandOf, ofBool_getLsbD, ← hop, ← hc, ← hz,
    fieldsWord_of_fields hcond]

theorem encodeLDS_of_fields {op : BitVec 7} {x : BitVec 1} (hop : w.extractLsb' 21 7 = op)
    (hx : w.extractLsb' 20 1 = x) : encodeLDS op x (operandDofLDS w) (operandS w) = w := by
  rw [encodeLDS, operandDofLDS, operandS, selector_operandOf, selector_operandOf, field_operandOf, field_operandOf,
    ofBool_getLsbD, ofBool_getLsbD, ← hop, ← hx, fieldsWord_of_fields hcond]

theorem encodeD1_of_fields {ext : BitVec 9} (hop : w.extractLsb' 21 7 = 0b1101011#7) (hc : w.extractLsb' 20 1 = 0)
    (hz : w.extractLsb' 19 1 = 0) (hext : w.extractLsb' 0 9 = ext) : encodeD1 ext (operandDofD1 w) = w := by
  have hword := fieldsWord_of_fields hcond
  rw [hop, hc, hz, fieldS, hext] at hword
  rw [encodeD1, operandDofD1, selector_operandOf, field_operandOf, ofBool_getLsbD, hword]

theorem augmentWord_of_fields {op : BitVec 5} (hop : w.extractLsb' 23 5 = op) : 0xF#4 ++ op ++ fieldN w = w := by
  have hfield : w.extractLsb' 28 4 = 0xF#4 := by simpa [Machine.conditionAdmitted, Machine.conditionField] using hcond
  rw [fieldN, ← hop, ← hfield]
  simp only [BitVec.extractLsb'_append_extractLsb'_eq_extractLsb']
  exact BitVec.extractLsb'_eq_self

/-- The instruction of a matching row encodes to the word: the mask's fields are the row's, the others the operands'. -/
theorem encode_build {op : Op} (h : op.matchesWord w = true) : encode (op.build w) = w := by
  have hfield := @Op.field_of_matches w op h
  cases op with
  | addpix | mulpix | blnpix | mixpix =>
    exact encodeDS_of_fields hcond (hfield 21 (by decide)) (hfield 20 (by decide)) (hfield 19 (by decide))
  | xinit | xzero | xcont => exact encodeLDS_of_fields hcond (hfield 21 (by decide)) (hfield 20 (by decide))
  | setdacs | setxfrq | setq | setpiv | setpix =>
    exact encodeD1_of_fields hcond (hfield 21 (by decide)) (hfield 20 (by decide)) (hfield 19 (by decide))
      (hfield 0 (by decide))
  | xstop =>
    have hword := encodeLDS_of_fields hcond (hfield 21 (v := 0b1100101#7) (by decide)) (hfield 20 (v := 0) (by decide))
    obtain ⟨hD, hS⟩ := operands_of_xstop h
    rw [hD, hS] at hword
    exact hword
  | getxacc =>
    have hword := encodeD1_of_fields hcond (hfield 21 (by decide)) (hfield 20 (by decide)) (hfield 19 (by decide))
      (hfield 0 (v := 0b000011110#9) (by decide))
    have hL : w.getLsbD 18 = false := by simpa using congrArg (·.getLsbD 0) (hfield 18 (v := 0#1) (by decide))
    rw [operandDofD1, hL] at hword
    exact hword
  | augs | augd => exact augmentWord_of_fields hcond (hfield 23 (by decide))

/-- The instruction read from a word is well-formed. For XINIT because its word is not XSTOP's. -/
theorem build_wellFormed {op : Op} (h : op.reads w) : (op.build w).wellFormed = true := by
  obtain ⟨hmatch, hxstop⟩ := h
  rw [Instr.wellFormed_eq]
  cases op with
  | xinit =>
    have hword := encode_build hcond hmatch
    have hne : ¬(operandDofLDS w = .imm 0 ∧ operandS w = .imm 0) := by
      rintro ⟨hD, hS⟩
      simp only [Op.build, hD, hS] at hword
      have hclosed : Op.xstop.matchesWord (encode (.xinit (.imm 0) (.imm 0))) = true := by decide
      rw [hword, hxstop rfl] at hclosed
      cases hclosed
    simpa [Op.build, Instr.fitsWord, operandDofLDS, operandS, imp_iff_not_or] using hne
  | addpix | mulpix | blnpix | mixpix | setdacs | setxfrq | setq | setpiv | setpix => exact fits_operandOf _ _
  | xzero | xcont => simp [Op.build, Instr.fitsWord, operandDofLDS, operandS]
  | xstop | getxacc | augs | augd => rfl

end fromWord

/-- Settles O6: the row that reads the word rebuilds it. -/
theorem encodeOfDecodeIsTheWord : Obligations.EncodeOfDecodeIsTheWord := by
  intro w i hcond h
  obtain ⟨op, hreads, rfl⟩ := decodeWord_eq_some_iff.1 h
  obtain ⟨hmatch, -⟩ := id hreads
  exact ⟨build_wellFormed hcond hreads, encode_build hcond hmatch⟩

/-- Settles O7, by evaluating the decoder on the nine closed words. -/
theorem vectorWordsDecode : Obligations.VectorWordsDecode :=
  ⟨by decide, by decide, by decide, by decide, by decide, by decide, by decide, by decide, by decide⟩

end Sys2Proof

/-! The statements of the family 30_encoding.md, second part: fetching a loaded word, the words the fetch refuses, and the
AUGS and AUGD words. `SpellsText` says once when operands under pending words stand for those of the assembly text; each kind
of instruction then answers the same, with the program counter further on. -/

namespace Sys2Proof.Machine

/-! ### Fetching -/

theorem encode_conditionAdmitted (i : Instr) : conditionAdmitted (encode i) = true := by
  cases i with
  | addpix d o | mulpix d o | blnpix d o | mixpix d o => exact Laws.conditionAdmitted_fieldsWord _ _ _ _ _ _
  | setpiv o | setpix o | setdacs o | setxfrq o | setq o => exact Laws.conditionAdmitted_fieldsWord _ _ _ _ _ _
  | xinit d o | xzero d o | xcont d o => exact Laws.conditionAdmitted_fieldsWord _ _ _ _ _ _
  | xstop => exact Laws.EncodesAlways.xstop
  | getxacc d => exact Laws.EncodesAlways.getxacc d
  | augs n | augd n => exact Laws.conditionAdmitted_augment _ n

/-- Bytes written above an address leave the byte there. -/
theorem Memory.read_writeAll_below (bs : List Byte) (m : Memory) {a c : Nat} (h : c < a) :
    Memory.read (Memory.writeAll m a bs) c = Memory.read m c := by
  induction bs generalizing m a with
  | nil => rfl
  | cons b bs ih => exact (ih (m.write a b) (by omega)).trans (Memory.read_write_other m b (by omega))

/-- Bytes written one after the other are read back in one run. -/
theorem Memory.readRun_writeAll (bs : List Byte) (m : Memory) (a : Nat) :
    Memory.readRun (Memory.writeAll m a bs) a bs.length = bs := by
  induction bs generalizing m a with
  | nil => rfl
  | cons b bs ih =>
    have hread : Memory.read (Memory.writeAll m a (b :: bs)) a = some b :=
      (Memory.read_writeAll_below bs (m.write a b) (by omega)).trans (Memory.read_write_same m a b)
    simp only [List.length_cons, Memory.readRun, hread]
    exact congrArg (b :: ·) (ih (m.write a b) (a + 1))

/-- The fetch decodes the bytes of the loaded word. -/
theorem fetch_withFetchWord (s : State) (w : Word) :
    fetch (s.withFetchWord 32 w.toNat) = decodeFetched (leBytes 4 w) := by
  have hword : BitVec.ofNat 32 (w.toNat % 2 ^ 32) = w := by
    rw [Nat.mod_eq_of_lt w.isLt, BitVec.ofNat_toNat, BitVec.setWidth_eq]
  simp only [fetch, State.withFetchWord, hword]
  exact congrArg decodeFetched (Memory.readRun_writeAll (leBytes 4 w) _ _)

/-- Settles O11: the loaded bytes are read back, and they decode to the instruction by the round trip. -/
theorem loadedWordIsFetched : Obligations.LoadedWordIsFetched := by
  intro s i h
  rw [fetch_withFetchWord]
  refine decodeFetched_of_decode (rest := []) ?_ ?_
  · rw [leWord_leBytes, encode_conditionAdmitted]
  · simpa using decode_leBytes (decodeWord_encode h) []

theorem step_of_reject {s : State} {r : Refusal} (hdue : s.sched.due = 0) (h : fetch s = .reject r) :
    step s = .refused r := by
  simp only [step, hdue, if_true, h]

theorem decodeFetched_of_condition {bs : List Byte} (hlen : bs.length = 4)
    (hcond : conditionField (leWord bs) ≠ 0xF#4) : decodeFetched bs = .reject .conditionNotModelled := by
  match bs, hlen with
  | [b0, b1, b2, b3], _ => simp [decodeFetched, conditionAdmitted, hcond]

theorem decodeFetched_of_noRow {bs : List Byte} (hlen : bs.length = 4) (hcond : conditionField (leWord bs) = 0xF#4)
    (h : decodeWord (leWord bs) = none) : decodeFetched bs = .reject .notAnInstruction := by
  match bs, hlen with
  | [b0, b1, b2, b3], _ => simp [decodeFetched, conditionAdmitted, hcond, decode, h]

/-- Settles O10: the condition is looked at first, then the opcode map. -/
theorem stepRefusesWordsOutsideTheSpec : Obligations.StepRefusesWordsOutsideTheSpec := by
  intro s bs hdue hbs hlen
  have hfetch : fetch s = decodeFetched bs := congrArg decodeFetched hbs
  exact ⟨fun hcond => step_of_reject hdue (hfetch.trans (decodeFetched_of_condition hlen hcond)),
    fun hcond hrow => step_of_reject hdue (hfetch.trans (decodeFetched_of_noRow hlen hcond hrow))⟩

/-! ### The AUGS and AUGD words -/

/-- The cog after an AUGS word. -/
def Cog.afterAugs (n : AugBits) (c : Cog) : Cog := { c.passAugment with augs := some n }

/-- The cog after an AUGD word. -/
def Cog.afterAugd (n : AugBits) (c : Cog) : Cog := { c.passAugment with augd := some n }

theorem exec_augs (n : AugBits) (s : State) : exec (.augs n) s = .next (s.withCog (s.cog.afterAugs n)) := rfl

theorem exec_augd (n : AugBits) (s : State) : exec (.augd n) s = .next (s.withCog (s.cog.afterAugd n)) := rfl

/-- Settles O34: each word writes its own bits, the program counter and the mark of a separated SETQ. -/
theorem augsAndAugdKeepTheirBits : Obligations.AugsAndAugdKeepTheirBits :=
  fun n s => ⟨exec_augs n s, exec_augd n s⟩

/-! ### A SETQ separated from its command -/

section split

variable {d o : Operand} {s : State} (hd : PlainOperand d s) (ho : PlainOperand o s)
  (hsplit : (s.cog.qpend.isSome && s.cog.qSplit) = true)

include hd ho hsplit

theorem commandRefusal_split : commandRefusal d o s = some .setqSplit := by
  have hd : namesOutside s.par d = false := hd
  have ho : namesOutside s.par o = false := ho
  simp [commandRefusal, hd, ho, hsplit]

theorem initWith_split : initWith d o s = .refused .setqSplit := by
  simp only [initWith, commandRefusal_split hd ho hsplit]

theorem bufferCommand_split (kind : CmdKind) : bufferCommand kind d o s = .refused .setqSplit := by
  simp only [bufferCommand, commandRefusal_split hd ho hsplit]

end split

theorem execXstop_split {s : State} (hsplit : (s.cog.qpend.isSome && s.cog.qSplit) = true) :
    execXstop s = .refused .setqSplit := by
  have hzero : PlainOperand (.imm 0) s := rfl
  unfold execXstop
  split
  · exact initWith_split hzero hzero hsplit
  · simp only [commandRefusal_split hzero hzero hsplit]

/-- Settles O36: SETQ leaves its value pending, the word after it leaves the mark, and the mark makes a plain command
refused. -/
theorem prefixWordAfterSetqIsRefused : Obligations.PrefixWordAfterSetqIsRefused := by
  intro q d o n p i s t u hd ho hp hi ht hu
  obtain ⟨-, rfl⟩ := withOperand_next (show execSetq q s = _ from ht)
  obtain ⟨hpar, hsplit⟩ : u.par = s.par ∧ (u.cog.qpend.isSome && u.cog.qSplit) = true := by
    rcases hp with rfl | rfl
    · cases hu
      exact ⟨rfl, rfl⟩
    · cases hu
      exact ⟨rfl, rfl⟩
  have hd : PlainOperand d u := by rwa [PlainOperand, hpar]
  have ho : PlainOperand o u := by rwa [PlainOperand, hpar]
  rcases hi with rfl | rfl | rfl | rfl
  · exact initWith_split hd ho hsplit
  · exact bufferCommand_split hd ho hsplit .zero
  · exact bufferCommand_split hd ho hsplit .cont
  · exact execXstop_split hsplit

/-! ### Instructions on another cog: the streamer's part of a command does not read it -/

/-- An answer with the next state's cog replaced. -/
def replaceCog (c : Cog) (r : Result) : Result :=
  match r with
  | .next t => .next (t.withCog c)
  | .fault f => .fault f
  | .refused e => .refused e

section replaceCog

variable (c : Cog) (s : State)

theorem State.withStr_withCog (x : Streamer) : (s.withCog c).withStr x = (s.withStr x).withCog c := rfl

theorem State.withFifo_withCog (f : Fifo) : (s.withCog c).withFifo f = (s.withFifo f).withCog c := rfl

theorem present_withCog : present (s.withCog c) = replaceCog c (present s) := by
  unfold present
  rw [State.withCog_str, State.withCog_par]
  split
  · split
    · rfl
    · rfl
  · rfl

theorem loadChunk_withCog (chunk : Nat) : loadChunk chunk (s.withCog c) = replaceCog c (loadChunk chunk s) := by
  simp only [loadChunk, State.withCog_fifo, State.withCog_str, State.withCog_par, State.withStr_withCog,
    State.withFifo_withCog, present_withCog]
  split
  · rfl
  · rfl

theorem loadFirst_withCog : loadFirst (s.withCog c) = replaceCog c (loadFirst s) := by
  simp only [loadFirst, State.withCog_str, State.withStr_withCog, loadChunk_withCog, present_withCog]
  split
  · rfl
  · split
    · rfl
    · rfl

theorem start_withCog (cmd : Command) : start cmd (s.withCog c) = replaceCog c (start cmd s) := by
  simp only [start, State.withCog_str, State.withStr_withCog, loadFirst_withCog]
  split
  · rfl
  · rfl

theorem initCommand_withCog (cmd : Command) : initCommand cmd (s.withCog c) = replaceCog c (initCommand cmd s) := by
  simp only [initCommand, State.withCog_str, State.withStr_withCog, start_withCog]
  split
  · split
    · rfl
    · rfl
  · rfl

end replaceCog

/-! ### Operands under pending words -/

/-- The cog with the program counter `k` words further on. -/
def Cog.later (k : Nat) (c : Cog) : Cog := { c with pc := c.pc + k }

theorem Cog.later_later (k l : Nat) (c : Cog) : (c.later k).later l = c.later (k + l) :=
  congrArg (fun n => { c with pc := n }) (Nat.add_assoc c.pc k l)

theorem valueD_imm (c : Cog) (v : Word) : valueD c (.imm v) = augmented c.augd v := rfl

theorem valueS_imm (c : Cog) (v : Word) : valueS c (.imm v) = c.nexts.getD (augmented c.augs v) := by
  unfold valueS
  cases c.nexts with
  | none => rfl
  | some y => rfl

/-- On the cog `c'`, `k` words after `c`, the operands `d'` and `o'` stand for the operands `d` and `o` of the assembly text:
the same values, the same refusals and the same completion (30_encoding.md R73, R83). -/
structure SpellsText (k : Nat) (c' : Cog) (d' o' : Operand) (c : Cog) (d o : Operand) : Prop where
  outsideD (p : Params) : namesOutside p d' = namesOutside p d
  outsideS (p : Params) : namesOutside p o' = namesOutside p o
  valueD : valueD c' d' = valueD c d
  valueS : valueS c' o' = valueS c o
  qpend : c'.qpend = c.qpend
  retire : c'.retire (isImmediate d') (isImmediate o') = (c.retire (isImmediate d) (isImmediate o)).later k

/-- Words before words before an instruction. -/
theorem SpellsText.trans {k l : Nat} {a b c : Cog} {d o d' o' d'' o'' : Operand}
    (hab : SpellsText l a d'' o'' b d' o') (hbc : SpellsText k b d' o' c d o) : SpellsText (k + l) a d'' o'' c d o where
  outsideD p := (hab.outsideD p).trans (hbc.outsideD p)
  outsideS p := (hab.outsideS p).trans (hbc.outsideS p)
  valueD := hab.valueD.trans hbc.valueD
  valueS := hab.valueS.trans hbc.valueS
  qpend := hab.qpend.trans hbc.qpend
  retire := by rw [hab.retire, hbc.retire, Cog.later_later]

/-- What an AUGS or AUGD word carries of a value. -/
def highBits (v : Word) : AugBits := v.extractLsb' 9 23

/-- What an instruction word carries of a value. -/
def lowNine (v : Word) : Operand := .imm ((v.extractLsb' 0 9).setWidth 32)

/-- The two parts make up the value (30_encoding.md R83). -/
theorem augmented_parts (v : Word) : augmented (some (highBits v)) ((v.extractLsb' 0 9).setWidth 32) = v := by
  simp only [augmented, highBits, BitVec.extractLsb'_setWidth_of_le (show 0 + 9 ≤ 32 by decide),
    BitVec.extractLsb'_eq_self, BitVec.extractLsb'_append_extractLsb'_eq_extractLsb']

/-- An AUGD word, and the low nine bits of D beside any S. -/
theorem spellsText_augd {c : Cog} (v : Word) (o : Operand) (hd : c.augd = none) :
    SpellsText 1 (c.afterAugd (highBits v)) (lowNine v) o c (.imm v) o where
  outsideD _ := rfl
  outsideS _ := rfl
  valueD := by
    rw [valueD_imm, hd]
    exact augmented_parts v
  valueS := rfl
  qpend := rfl
  retire := rfl

/-- An AUGS word, and the low nine bits of S beside any D. -/
theorem spellsText_augs {c : Cog} (w : Word) (d : Operand) (hs : c.augs = none) :
    SpellsText 1 (c.afterAugs (highBits w)) d (lowNine w) c d (.imm w) where
  outsideD _ := rfl
  outsideS _ := rfl
  valueD := rfl
  valueS := by
    rw [valueS_imm, hs, lowNine, valueS_imm]
    exact congrArg c.nexts.getD (augmented_parts w)
  qpend := rfl
  retire := rfl

/-- Both words, and the low nine bits of both operands. -/
theorem spellsText_both {c : Cog} (v w : Word) (hd : c.augd = none) (hs : c.augs = none) :
    SpellsText 2 ((c.afterAugd (highBits v)).afterAugs (highBits w)) (lowNine v) (lowNine w) c (.imm v) (.imm w) :=
  (spellsText_augs (c := c.afterAugd (highBits v)) w (lowNine v) hs).trans (spellsText_augd v (.imm w) hd)

/-! ### Instructions under pending words -/

theorem Cog.retire_writeReg (c : Cog) (n : Reg) (v : Word) (immD immS : Bool) :
    (c.writeReg n v).retire immD immS = (c.retire immD immS).writeReg n v := rfl

/-- The completion on another cog, of an answer that left its own cog alone. -/
theorem thenRetire_replaceCog {k : Nat} {c c' : Cog} {immD immS immD' immS' : Bool} {r : Result}
    (hown : r = replaceCog c r) (h : c'.retire immD' immS' = (c.retire immD immS).later k) :
    thenRetire (replaceCog c' r) immD' immS' = laterBy k (thenRetire r immD immS) := by
  cases r with
  | next t =>
    injection hown with ht
    obtain rfl : t.cog = c := congrArg State.cog ht
    exact congrArg (fun x => Host.Outcome.next (t.withCog x)) h
  | fault f => rfl
  | refused e => rfl

namespace SpellsText

variable {k : Nat} {c' : Cog} {d' o' d o : Operand} {s : State}

/-- A pixel operation writes the same lanes: its D register is read and its S operand valued alike. -/
theorem pixelOp {n : Reg} (h : SpellsText k c' (.reg n) o' s.cog (.reg n) o) (dm sm : Byte → Byte → Byte) :
    pixelOp dm sm n o' (s.withCog c') = laterBy k (pixelOp dm sm n o s) := by
  have hread : c'.readReg n = s.cog.readReg n := h.valueD
  have hretire : c'.retire false (isImmediate o') = (s.cog.retire false (isImmediate o)).later k := h.retire
  simp only [Machine.pixelOp, State.withCog_par, State.withCog_prog, State.withCog_cog, h.outsideS, h.valueS, hread,
    Cog.retire_writeReg, hretire]
  split
  · rfl
  · split
    · rfl
    · rfl

/-- A one-operand instruction has the same effect, if its effect does not read the program counter. Such an instruction has
no S operand; the register `n` stands in its place. -/
theorem withOperand {n : Reg} (h : SpellsText k c' d' (.reg n) s.cog d (.reg n)) {effect : Word → State → State}
    (heffect : ∀ v t, effect v (t.withCog (t.cog.later k)) = (effect v t).withCog ((effect v t).cog.later k)) :
    withOperand d' (s.withCog c') effect = laterBy k (withOperand d s effect) := by
  have hretire : c'.retire (isImmediate d') false = (s.cog.retire (isImmediate d) false).later k := h.retire
  simp only [Machine.withOperand, State.withCog_par, State.withCog_cog, h.outsideD, h.valueD, hretire]
  split
  · rfl
  · exact congrArg Host.Outcome.next (heffect _ (s.withCog _))

theorem commandRefusal (h : SpellsText k c' d' o' s.cog d o) (hq : s.cog.qpend = none) :
    commandRefusal d' o' (s.withCog c') = commandRefusal d o s := by
  simp only [Machine.commandRefusal, State.withCog_par, State.withCog_cog, h.outsideD, h.outsideS, h.qpend, hq,
    Option.isSome_none, Bool.false_and]

theorem commandOf (h : SpellsText k c' d' o' s.cog d o) (kind : CmdKind) :
    commandOf kind (Machine.valueD c' d') (Machine.valueS c' o') (s.withCog c') =
      commandOf kind (Machine.valueD s.cog d) (Machine.valueS s.cog o) s := by
  simp only [Machine.commandOf, State.withCog_cog, h.valueD, h.valueS, h.qpend]

theorem initWith (h : SpellsText k c' d' o' s.cog d o) (hq : s.cog.qpend = none) :
    initWith d' o' (s.withCog c') = laterBy k (initWith d o s) := by
  simp only [Machine.initWith, h.commandRefusal hq, State.withCog_cog, h.commandOf, initCommand_withCog c']
  split
  · rfl
  · exact thenRetire_replaceCog (initCommand_withCog s.cog s _) h.retire

theorem bufferCommand (h : SpellsText k c' d' o' s.cog d o) (hq : s.cog.qpend = none) (hfree : blocked s = false)
    (kind : CmdKind) : bufferCommand kind d' o' (s.withCog c') = laterBy k (bufferCommand kind d o s) := by
  simp only [Machine.bufferCommand, h.commandRefusal hq, State.withCog_cog, State.withCog_str, h.commandOf,
    start_withCog c']
  split
  · rfl
  · split
    · exact thenRetire_replaceCog (start_withCog s.cog s _) h.retire
    · rename_i hrun
      have hempty : s.str.xbuf.isSome = false := by
        simpa only [blocked, hrun, ne_eq, not_false_eq_true, decide_true, Bool.true_and] using hfree
      simp only [hempty, Bool.false_eq_true, if_false]
      exact congrArg (fun c => Host.Outcome.next ((s.withStr _).withCog c)) h.retire

/-- The word of XSTOP after an AUGS or AUGD word is the last word of an XINIT whose low nine bits are zeros
(30_encoding.md R84, log 27). -/
theorem xstop (h : SpellsText k c' (.imm 0) (.imm 0) s.cog d o) (hq : s.cog.qpend = none)
    (hpending : (c'.augd.isSome || c'.augs.isSome) = true) :
    exec .xstop (s.withCog c') = laterBy k (exec (.xinit d o) s) :=
  (if_pos hpending).trans (h.initWith hq)

end SpellsText

/-! ### A word list before an instruction -/

/-- After these words an instruction runs in the same state but for the cog `c'`. -/
def LeadsTo (words : List Instr) (s : State) (c' : Cog) : Prop :=
  ∀ i, execAll (words ++ [i]) s = exec i (s.withCog c')

theorem execAll_singleton (i : Instr) (s : State) : execAll [i] s = exec i s := by
  cases h : exec i s with
  | next t => simp only [execAll, h]
  | fault f => simp only [execAll, h]
  | refused e => simp only [execAll, h]

theorem leadsTo_augd (n : AugBits) (s : State) : LeadsTo [.augd n] s (s.cog.afterAugd n) :=
  fun i => execAll_singleton i _

theorem leadsTo_augs (n : AugBits) (s : State) : LeadsTo [.augs n] s (s.cog.afterAugs n) :=
  fun i => execAll_singleton i _

/-- The order of the two words does not matter. -/
theorem leadsTo_both (n m : AugBits) (s : State) {words : List Instr}
    (h : words = [.augd n, .augs m] ∨ words = [.augs m, .augd n]) :
    LeadsTo words s ((s.cog.afterAugd n).afterAugs m) := by
  rcases h with rfl | rfl
  · exact fun i => execAll_singleton i _
  · exact fun i => execAll_singleton i _

/-- The pixel operations after an AUGS word. -/
theorem pixel_after_augs (w : Word) (d : Reg) (s : State) (hs : s.cog.augs = none) :
    execAll [.augs (highBits w), .addpix d (lowNine w)] s = laterBy 1 (exec (.addpix d (.imm w)) s) ∧
    execAll [.augs (highBits w), .mulpix d (lowNine w)] s = laterBy 1 (exec (.mulpix d (.imm w)) s) ∧
    execAll [.augs (highBits w), .blnpix d (lowNine w)] s = laterBy 1 (exec (.blnpix d (.imm w)) s) ∧
    execAll [.augs (highBits w), .mixpix d (lowNine w)] s = laterBy 1 (exec (.mixpix d (.imm w)) s) := by
  have hrun := leadsTo_augs (highBits w) s
  have hspell := spellsText_augs w (.reg d) hs
  exact ⟨(hrun _).trans (hspell.pixelOp _ _), (hrun _).trans (hspell.pixelOp _ _), (hrun _).trans (hspell.pixelOp _ _),
    (hrun _).trans (hspell.pixelOp _ _)⟩

/-- The one-operand instructions after an AUGD word. -/
theorem oneOperand_after_augd (v : Word) (s : State) (hd : s.cog.augd = none) :
    execAll [.augd (highBits v), .setpiv (lowNine v)] s = laterBy 1 (exec (.setpiv (.imm v)) s) ∧
    execAll [.augd (highBits v), .setpix (lowNine v)] s = laterBy 1 (exec (.setpix (.imm v)) s) ∧
    execAll [.augd (highBits v), .setdacs (lowNine v)] s = laterBy 1 (exec (.setdacs (.imm v)) s) ∧
    execAll [.augd (highBits v), .setxfrq (lowNine v)] s = laterBy 1 (exec (.setxfrq (.imm v)) s) ∧
    execAll [.augd (highBits v), .setq (lowNine v)] s = laterBy 1 (exec (.setq (.imm v)) s) := by
  have hrun := leadsTo_augd (highBits v) s
  have hspell := spellsText_augd v (.reg 0) hd
  refine ⟨(hrun _).trans ?setpiv, (hrun _).trans ?setpix, (hrun _).trans ?setdacs, (hrun _).trans ?setxfrq,
    (hrun _).trans ?setq⟩
  case setpiv => exact (show execSetpiv _ _ = laterBy 1 (execSetpiv _ _) from hspell.withOperand fun _ _ => rfl)
  case setpix => exact (show execSetpix _ _ = laterBy 1 (execSetpix _ _) from hspell.withOperand fun _ _ => rfl)
  case setdacs => exact (show execSetdacs _ _ = laterBy 1 (execSetdacs _ _) from hspell.withOperand fun _ _ => rfl)
  case setxfrq => exact (show execSetxfrq _ _ = laterBy 1 (execSetxfrq _ _) from hspell.withOperand fun _ _ => rfl)
  case setq => exact (show execSetq _ _ = laterBy 1 (execSetq _ _) from hspell.withOperand fun _ _ => rfl)

namespace LeadsTo

variable {words : List Instr} {k : Nat} {c' : Cog} {d' o' d o : Operand} {s : State} (hrun : LeadsTo words s c')
  (hq : s.cog.qpend = none)

include hrun hq

theorem xinit (h : SpellsText k c' d' o' s.cog d o) :
    execAll (words ++ [.xinit d' o']) s = laterBy k (exec (.xinit d o) s) :=
  (hrun _).trans (h.initWith hq)

theorem xstop (h : SpellsText k c' d' o' s.cog d o) (hd : d' = .imm 0) (ho : o' = .imm 0)
    (hpending : (c'.augd.isSome || c'.augs.isSome) = true) :
    execAll (words ++ [.xstop]) s = laterBy k (exec (.xinit d o) s) := by
  subst hd ho
  exact (hrun _).trans (h.xstop hq hpending)

theorem buffered (h : SpellsText k c' d' o' s.cog d o) (hfree : blocked s = false) :
    execAll (words ++ [.xzero d' o']) s = laterBy k (exec (.xzero d o) s) ∧
      execAll (words ++ [.xcont d' o']) s = laterBy k (exec (.xcont d o) s) :=
  ⟨(hrun _).trans (h.bufferCommand hq hfree .zero), (hrun _).trans (h.bufferCommand hq hfree .cont)⟩

end LeadsTo

/-- Settles O35: in each clause the words lead to a cog on which the short operands spell the text's. -/
theorem augmentedImmediatesMeanTheText : Obligations.AugmentedImmediatesMeanTheText := by
  refine ⟨pixel_after_augs, oneOperand_after_augd, ?augd, ?augs, ?both⟩
  case augd =>
    intro v o s hd hq
    have hrun := leadsTo_augd (highBits v) s
    have hspell := spellsText_augd v o hd
    exact ⟨hrun.xinit hq hspell, fun hzero => hrun.xstop hq (spellsText_augd v (.imm 0) hd) hzero rfl rfl,
      hrun.buffered hq hspell⟩
  case augs =>
    intro w d s hs hq
    have hrun := leadsTo_augs (highBits w) s
    have hspell := spellsText_augs w d hs
    exact ⟨hrun.xinit hq hspell,
      fun hzero => hrun.xstop hq (spellsText_augs w (.imm 0) hs) rfl hzero (Bool.or_true _), hrun.buffered hq hspell⟩
  case both =>
    intro v w s words hd hs hq hwords
    have hrun := leadsTo_both (highBits v) (highBits w) s hwords
    have hspell := spellsText_both v w hd hs
    exact ⟨hrun.xinit hq hspell, fun hv hw => hrun.xstop hq hspell hv hw rfl, hrun.buffered hq hspell⟩

end Sys2Proof.Machine

/-! The statements of the family 40_pixel_mixer.md. `LaneIs` says what one lane computes, a law of bytes alone;
`LaneIs.pixelOp` carries it to the whole next state. -/

namespace Sys2Proof.Machine

/-! ### The lanes of a word -/

/-- `pack` puts byte `k` on lane `k` (00_scope.md R13). -/
theorem byteAt_pack (b : Nat → Byte) {k : Nat} (hk : k < 4) : byteAt (pack (b 3) (b 2) (b 1) (b 0)) k = b k := by
  ext j hj
  simp only [byteAt, pack, BitVec.getElem_extractLsb', BitVec.getLsbD_append]
  interval_cases k <;> grind

theorem pack_byteAt (v : Word) : pack (byteAt v 3) (byteAt v 2) (byteAt v 1) (byteAt v 0) = v := by
  rw [← leWord_four]
  exact leWord_leBytes v

/-- The word whose lane `k` is `f` of the lanes `k` of two words (40_pixel_mixer.md R100). -/
def mapLanes (f : Byte → Byte → Byte) (dv sv : Word) : Word :=
  let lane := fun k => f (byteAt dv k) (byteAt sv k)
  pack (lane 3) (lane 2) (lane 1) (lane 0)

theorem byteAt_mapLanes (f : Byte → Byte → Byte) (dv sv : Word) {k : Nat} (hk : k < 4) :
    byteAt (mapLanes f dv sv) k = f (byteAt dv k) (byteAt sv k) :=
  byteAt_pack (fun k => f (byteAt dv k) (byteAt sv k)) hk

theorem mapLanes_left (dv sv : Word) : mapLanes (fun db _ => db) dv sv = dv := pack_byteAt dv

theorem mapLanes_right (dv sv : Word) : mapLanes (fun _ sb => sb) dv sv = sv := pack_byteAt sv

theorem mapLanes_zero (dv sv : Word) : mapLanes (fun _ _ => 0) dv sv = 0 :=
  show pack 0 0 0 0 = 0 by decide

/-- A lane under these two terms is `f` of its bytes. -/
def LaneIs (dmix smix f : Byte → Byte → Byte) : Prop :=
  ∀ db sb, pixLane db sb (dmix db sb) (smix db sb) = f db sb

theorem LaneIs.mixLanes {dmix smix f : Byte → Byte → Byte} (h : LaneIs dmix smix f) (dv sv : Word) :
    mixLanes dmix smix dv sv = mapLanes f dv sv := by
  simp only [Machine.mixLanes, mapLanes, h _ _]

/-- Settles O13: both words have on lane `k` the lane function of the same bytes. -/
theorem pixelLanesAreIndependent : Obligations.PixelLanesAreIndependent := by
  intro dmix smix d d' s s' k hk hd hs
  have hlane : LaneIs dmix smix fun db sb => pixLane db sb (dmix db sb) (smix db sb) := fun _ _ => rfl
  rw [hlane.mixLanes, hlane.mixLanes, byteAt_mapLanes _ d s hk, byteAt_mapLanes _ d' s' hk, hd, hs]

/-! ### The lane function -/

theorem byte_mul_le (a b : Byte) : a.toNat * b.toNat ≤ 255 * 255 :=
  Nat.mul_le_mul (Nat.le_of_lt_succ a.isLt) (Nat.le_of_lt_succ b.isLt)

theorem pixLane_eq (d s dmix smix : Byte) :
    pixLane d s dmix smix =
      BitVec.ofNat 8 (min ((d.toNat * dmix.toNat + s.toNat * smix.toNat + 255) / 256) 255) := by
  rw [pixLane, Nat.shiftRight_eq_div_pow]

theorem pixLane_toNat (d s dmix smix : Byte) :
    (pixLane d s dmix smix).toNat = min ((d.toNat * dmix.toNat + s.toNat * smix.toNat + 255) / 256) 255 := by
  rw [pixLane_eq, BitVec.toNat_ofNat]
  omega

/-- The limit does not act on a sum of at most `255 * 255` (40_pixel_mixer.md R104, R105). -/
theorem pixLane_of_le {d s dmix smix : Byte} (h : d.toNat * dmix.toNat + s.toNat * smix.toNat ≤ 255 * 255) :
    pixLane d s dmix smix = BitVec.ofNat 8 ((d.toNat * dmix.toNat + s.toNat * smix.toNat + 255) / 256) := by
  rw [pixLane_eq, min_eq_left (by omega)]

/-- `$FF` acts as 1.0 (40_pixel_mixer.md R101). -/
theorem pixLane_keeps (d s : Byte) : pixLane d s 0xFF 0 = d :=
  have hone : min ((d.toNat * 255 + s.toNat * 0 + 255) / 256) 255 = d.toNat := by omega
  BitVec.eq_of_toNat_eq ((pixLane_toNat d s 0xFF 0).trans hone)

theorem pixLane_copies (d s : Byte) : pixLane d s 0 0xFF = s :=
  have hone : min ((d.toNat * 0 + s.toNat * 255 + 255) / 256) 255 = s.toNat := by omega
  BitVec.eq_of_toNat_eq ((pixLane_toNat d s 0 0xFF).trans hone)

theorem pixLane_clears (d s : Byte) : pixLane d s 0 0 = 0 := by
  simp [pixLane_eq]

/-- `!V` is `255 - V` (00_scope.md R11). -/
theorem toNat_xor_ff (v : Byte) : (v ^^^ 0xFF).toNat = 255 - v.toNat := by
  have h : v ^^^ 0xFF = ~~~v := BitVec.xor_allOnes
  rw [h, BitVec.toNat_not]

/-- Settles O12: the sum is bounded by the products of bytes. -/
theorem pixelLaneIsALimitedSumOfProducts : Obligations.PixelLaneIsALimitedSumOfProducts := by
  intro d s dmix smix
  have hd := byte_mul_le d dmix
  have hs := byte_mul_le s smix
  exact ⟨pixLane_toNat d s dmix smix, by omega, rfl, rfl, pixLane_keeps d 0⟩

/-! ### The lanes of the operations -/

theorem laneIs_addpix :
    LaneIs (fun _ _ => 0xFF) (fun _ _ => 0xFF) fun db sb => BitVec.ofNat 8 (min (db.toNat + sb.toNat) 255) := by
  intro db sb
  have hsum : min ((db.toNat * 255 + sb.toNat * 255 + 255) / 256) 255 = min (db.toNat + sb.toNat) 255 := by omega
  exact (pixLane_eq db sb 0xFF 0xFF).trans (congrArg (BitVec.ofNat 8) hsum)

theorem laneIs_mulpix :
    LaneIs (fun _ sb => sb) (fun _ _ => 0) fun db sb => BitVec.ofNat 8 ((db.toNat * sb.toNat + 255) / 256) := by
  intro db sb
  have h := pixLane_of_le (d := db) (s := sb) (dmix := sb) (smix := 0) (by simpa using byte_mul_le db sb)
  simpa using h

/-- The two factors of a blend sum to 255. -/
theorem blend_le (d s v : Byte) : d.toNat * (255 - v.toNat) + s.toNat * v.toNat ≤ 255 * 255 := by
  have hd : d.toNat * (255 - v.toNat) ≤ 255 * (255 - v.toNat) := Nat.mul_le_mul_right _ (Nat.le_of_lt_succ d.isLt)
  have hs : s.toNat * v.toNat ≤ 255 * v.toNat := Nat.mul_le_mul_right _ (Nat.le_of_lt_succ s.isLt)
  omega

theorem laneIs_blnpix (v : Byte) :
    LaneIs (fun _ _ => v ^^^ 0xFF) (fun _ _ => v) fun db sb =>
      BitVec.ofNat 8 ((db.toNat * (255 - v.toNat) + sb.toNat * v.toNat + 255) / 256) := by
  intro db sb
  have hle := blend_le db sb v
  rw [← toNat_xor_ff] at hle ⊢
  exact pixLane_of_le hle

/-- The terms of MIXPIX, in the order of the source's table (40_pixel_mixer.md R106). -/
def mixTable (v db sb : Byte) : List Byte := [0x00, 0xFF, v, v ^^^ 0xFF, sb, sb ^^^ 0xFF, db, db ^^^ 0xFF]

theorem mixTerm_eq (v : Byte) (sel : BitVec 3) (db sb : Byte) :
    mixTerm v sel db sb = (mixTable v db sb)[sel.toNat]?.getD 0 := by
  have hsel : sel.toNat < 8 := sel.isLt
  simp only [mixTerm]
  generalize sel.toNat = n at hsel
  interval_cases n <;> rfl

/-- `M[5:3]` (10_state.md R27). -/
theorem toNat_highMode (m : BitVec 6) : (m.extractLsb' 3 3).toNat = m.toNat / 8 := by
  simp only [BitVec.extractLsb'_toNat, Nat.shiftRight_eq_div_pow]
  omega

/-- `M[2:0]` (10_state.md R27). -/
theorem toNat_lowMode (m : BitVec 6) : (m.extractLsb' 0 3).toNat = m.toNat % 8 := by
  simp [BitVec.extractLsb'_toNat]

theorem laneIs_mixpix (v : Byte) (m : BitVec 6) :
    LaneIs (mixTerm v (m.extractLsb' 3 3)) (mixTerm v (m.extractLsb' 0 3)) fun db sb =>
      BitVec.ofNat 8 (min ((db.toNat * ((mixTable v db sb)[m.toNat / 8]?.getD 0).toNat +
        sb.toNat * ((mixTable v db sb)[m.toNat % 8]?.getD 0).toNat + 255) / 256) 255) := by
  intro db sb
  rw [pixLane_eq, mixTerm_eq, mixTerm_eq, toNat_highMode, toNat_lowMode]

/-! ### The four pixel operations -/

section operations

variable {dmix smix f : Byte → Byte → Byte} {d : Reg} {o : Operand} {s : State}

/-- The next state of a pixel operation that is not refused (40_pixel_mixer.md R102). -/
theorem LaneIs.pixelOp (h : LaneIs dmix smix f) (hd : Writable d s) (ho : PlainOperand o s) :
    pixelOp dmix smix d o s = .next (s.withCog
      ((s.cog.writeReg d (mapLanes f (s.cog.readReg d) (valueS s.cog o))).retire false (isImmediate o))) := by
  obtain ⟨hgeneral, htext⟩ := hd
  have hplain : namesOutside s.par o = false := ho
  simp [Machine.pixelOp, hgeneral, hplain, htext, h.mixLanes]

/-- MIXPIX is the operation of the two terms that its M selects. -/
theorem exec_mixpix_of_mode {m : BitVec 6} (hm : s.mixer.m = m)
    (hdmix : mixTerm s.mixer.v (m.extractLsb' 3 3) = dmix) (hsmix : mixTerm s.mixer.v (m.extractLsb' 0 3) = smix) :
    exec (.mixpix d o) s = pixelOp dmix smix d o s := by
  rw [← hdmix, ← hsmix, ← hm]
  rfl

/-- BLNPIX is the operation of the terms `!V` and `V`. -/
theorem exec_blnpix_of_factor {v : Byte} (hv : s.mixer.v = v) :
    exec (.blnpix d o) s = pixelOp (fun _ _ => v ^^^ 0xFF) (fun _ _ => v) d o s := by
  rw [← hv]
  rfl

theorem pixelOp_keeps (hd : Writable d s) (ho : PlainOperand o s) :
    pixelOp (fun _ _ => 0xFF) (fun _ _ => 0) d o s =
      .next (s.withCog ((s.cog.writeReg d (s.cog.readReg d)).retire false (isImmediate o))) := by
  have h : LaneIs (fun _ _ => 0xFF) (fun _ _ => 0) fun db _ => db := pixLane_keeps
  rw [h.pixelOp hd ho, mapLanes_left]

theorem pixelOp_copies (hd : Writable d s) (ho : PlainOperand o s) :
    pixelOp (fun _ _ => 0) (fun _ _ => 0xFF) d o s =
      .next (s.withCog ((s.cog.writeReg d (valueS s.cog o)).retire false (isImmediate o))) := by
  have h : LaneIs (fun _ _ => 0) (fun _ _ => 0xFF) fun _ sb => sb := pixLane_copies
  rw [h.pixelOp hd ho, mapLanes_right]

theorem pixelOp_clears (hd : Writable d s) (ho : PlainOperand o s) :
    pixelOp (fun _ _ => 0) (fun _ _ => 0) d o s =
      .next (s.withCog ((s.cog.writeReg d 0).retire false (isImmediate o))) := by
  have h : LaneIs (fun _ _ => 0) (fun _ _ => 0) fun _ _ => 0 := pixLane_clears
  rw [h.pixelOp hd ho, mapLanes_zero]

end operations

/-- Settles O14, by the lane law `min(d + s, 255)`. -/
theorem addpixAddsBytesWithSaturation : Obligations.AddpixAddsBytesWithSaturation :=
  fun _ _ _ hd ho => laneIs_addpix.pixelOp hd ho

/-- Settles O15: a product of two bytes stays below the limit. -/
theorem mulpixMultipliesBytesRoundingUp : Obligations.MulpixMultipliesBytesRoundingUp :=
  fun _ _ _ hd ho => laneIs_mulpix.pixelOp hd ho

/-- Settles O16: the factors `255 - V` and `V` sum to 255, so a blend stays below the limit. -/
theorem blnpixBlendsBytesByV : Obligations.BlnpixBlendsBytesByV :=
  fun _ _ s hd ho => (laneIs_blnpix s.mixer.v).pixelOp hd ho

/-- Settles O17: the selectors are the two halves of M, and the terms are the table's. -/
theorem mixpixMixesBytesByM : Obligations.MixpixMixesBytesByM :=
  fun _ _ s hd ho => (laneIs_mixpix s.mixer.v s.mixer.m).pixelOp hd ho

/-- Settles O18: at each of these M and V the terms are those of the simpler operation. -/
theorem mixAndBlendBecomeSimplerOperations : Obligations.MixAndBlendBecomeSimplerOperations := by
  intro d o s
  refine ⟨fun hm => exec_mixpix_of_mode hm rfl rfl, fun hm => exec_mixpix_of_mode hm rfl rfl,
    fun hm => exec_mixpix_of_mode hm rfl rfl, fun hd ho => ⟨?clears, ?keeps, ?copies, ?blendKeeps, ?blendCopies⟩⟩
  case clears => exact fun hm => (exec_mixpix_of_mode hm rfl rfl).trans (pixelOp_clears hd ho)
  case keeps => exact fun hm => (exec_mixpix_of_mode hm rfl rfl).trans (pixelOp_keeps hd ho)
  case copies => exact fun hm => (exec_mixpix_of_mode hm rfl rfl).trans (pixelOp_copies hd ho)
  case blendKeeps => exact fun hv => (exec_blnpix_of_factor hv).trans (pixelOp_keeps hd ho)
  case blendCopies => exact fun hv => (exec_blnpix_of_factor hv).trans (pixelOp_copies hd ho)

/-! ### SETPIV and SETPIX -/

/-- The next state of a one-operand instruction that is not refused. -/
theorem withOperand_of_plain {o : Operand} {s : State} (ho : PlainOperand o s) (effect : Word → State → State) :
    withOperand o s effect = .next (effect (valueD s.cog o) (s.withCog (s.cog.retire (isImmediate o) false))) := by
  have hplain : namesOutside s.par o = false := ho
  simp [withOperand, hplain]

/-- The low `n` bits of a word. -/
theorem extractLsb'_zero_eq (v : Word) (n : Nat) : v.extractLsb' 0 n = BitVec.ofNat n (v.toNat % 2 ^ n) := by
  apply BitVec.eq_of_toNat_eq
  simp [BitVec.extractLsb'_toNat]

theorem exec_setpiv_of_plain {o : Operand} {s : State} (ho : PlainOperand o s) :
    exec (.setpiv o) s = .next ((s.withCog (s.cog.retire (isImmediate o) false)).withMixer
      { s.mixer with v := (valueD s.cog o).extractLsb' 0 8 }) :=
  withOperand_of_plain ho fun v t => t.withMixer { t.mixer with v := v.extractLsb' 0 8 }

theorem exec_setpix_of_plain {o : Operand} {s : State} (ho : PlainOperand o s) :
    exec (.setpix o) s = .next ((s.withCog (s.cog.retire (isImmediate o) false)).withMixer
      { s.mixer with m := (valueD s.cog o).extractLsb' 0 6 }) :=
  withOperand_of_plain ho fun v t => t.withMixer { t.mixer with m := v.extractLsb' 0 6 }

/-- Settles O19: V takes the low eight bits of the operand and M the low six. -/
theorem setpivAndSetpixSetTheMixer : Obligations.SetpivAndSetpixSetTheMixer := by
  intro o s ho
  rw [exec_setpiv_of_plain ho, exec_setpix_of_plain ho, extractLsb'_zero_eq, extractLsb'_zero_eq]
  exact ⟨rfl, rfl⟩

end Sys2Proof.Machine

/-! The statements of the family 41_dacs.md. Both sides of SETDACS meet in `channelsOf`: the model's four bytes are its fields,
and `channelsOf_eq_ofNat` gives them as the numbers of the statement. -/

namespace Sys2Proof.Machine

/-! ### The bytes of SETDACS -/

/-- Byte `k` as a number (00_scope.md R13). -/
theorem byteAt_eq_ofNat (v : Word) (k : Nat) : byteAt v k = BitVec.ofNat 8 (v.toNat / 2 ^ (8 * k) % 256) := by
  apply BitVec.eq_of_toNat_eq
  simp [byteAt, BitVec.extractLsb'_toNat, Nat.shiftRight_eq_div_pow]

/-- The top byte needs no cut. -/
theorem byteAt_three_eq_ofNat (v : Word) : byteAt v 3 = BitVec.ofNat 8 (v.toNat / 2 ^ 24) := by
  have htop : v.toNat / 2 ^ 24 % 256 = v.toNat / 2 ^ 24 := by omega
  rw [byteAt_eq_ofNat, htop]

theorem channelsOf_eq_ofNat (v : Word) :
    channelsOf v = { c3 := BitVec.ofNat 8 (v.toNat / 2 ^ 24), c2 := BitVec.ofNat 8 (v.toNat / 2 ^ 16 % 256),
                     c1 := BitVec.ofNat 8 (v.toNat / 2 ^ 8 % 256), c0 := BitVec.ofNat 8 (v.toNat % 256) } := by
  rw [channelsOf, Channels.mk.injEq]
  exact ⟨byteAt_three_eq_ofNat v, byteAt_eq_ofNat v 2, byteAt_eq_ofNat v 1, extractLsb'_zero_eq v 8⟩

theorem channelsOf_get (v : Word) (n : Fin 4) : (channelsOf v).get n = byteAt v n.val :=
  match n with
  | 0 | 1 | 2 | 3 => rfl

theorem exec_setdacs_of_plain {o : Operand} {s : State} (ho : PlainOperand o s) :
    exec (.setdacs o) s = .next ((s.withCog (s.cog.retire (isImmediate o) false)).withDac
      { s.dac with bg := channelsOf (valueD s.cog o) }) :=
  withOperand_of_plain ho fun v t => t.withDac { t.dac with bg := channelsOf v }

/-! ### What a channel shows -/

/-- Nothing overrides a channel of a stopped streamer without the colorspace converter (41_dacs.md R123). -/
theorem dacOut_of_stopped {s : State} (hcs : s.dac.csOn = false) (hstop : s.str.xcnt = 0) (n : Fin 4) :
    dacOut s n = s.dac.bg.get n := by
  simp [dacOut, hcs, hstop]

/-- Settles O20: the four numbers are the bytes of the operand, and neither premise on overrides is changed. -/
theorem setdacsSetsTheFourChannels : Obligations.SetdacsSetsTheFourChannels := by
  intro o s ho v t
  have hbg : channelsOf (valueD s.cog o) = t.dac.bg := channelsOf_eq_ofNat _
  refine ⟨?completes, fun hcs hstop n => ?shows⟩
  case completes =>
    rw [exec_setdacs_of_plain ho, hbg]
    rfl
  case shows =>
    calc dacOut t n = t.dac.bg.get n := dacOut_of_stopped (s := t) hcs hstop n
      _ = byteAt (valueD s.cog o) n.val := by rw [← hbg, channelsOf_get]
      _ = BitVec.ofNat 8 (v / 2 ^ (8 * n.val) % 256) := byteAt_eq_ofNat _ _

/-! ### The pins of a channel -/

theorem channelOfPin_eq_iff (p : Fin 64) (n : Fin 4) : channelOfPin p = n ↔ p.val % 4 = n.val := Fin.ext_iff

/-- Settles O22: the pin is driven from the channel of its residue. -/
theorem channelDrivesPinsOfItsResidue : Obligations.ChannelDrivesPinsOfItsResidue := by
  intro s p n
  exact ⟨channelOfPin_eq_iff p n, fun h => congrArg (dacOut s) ((channelOfPin_eq_iff p n).mpr h)⟩

end Sys2Proof.Machine

/-! The statements of the family 42_streamer_instructions.md, first part: the NCO, what a start, an advance and a clock of
the streamer answer, accepted or refused, and the statements that follow from these. The laws before this part say what a
given answer can have been; these say which answer is given. -/

namespace Sys2Proof.Machine

/-! ### The NCO -/

theorem ncoStep_toNat (f p : Word) : (ncoStep f p).toNat = (p.toNat % 2 ^ 31 + f.toNat) % 2 ^ 32 := by
  have hmask : (0x7FFFFFFF : Word).toNat = 2 ^ 31 - 1 := rfl
  rw [ncoStep, BitVec.toNat_add, BitVec.toNat_and, hmask, Nat.and_two_pow_sub_one_eq_mod]

/-- In the documented range the sum has no carry out of 32 bits. -/
theorem ncoStep_toNat_of_le {f : Word} (hf : f.toNat ≤ 2 ^ 31) (p : Word) :
    (ncoStep f p).toNat = p.toNat % 2 ^ 31 + f.toNat := by
  rw [ncoStep_toNat]
  omega

theorem rollsOver_iff (p : Word) : rollsOver p = true ↔ 2 ^ 31 ≤ p.toNat := by
  have hmsb : rollsOver p = p.msb := (BitVec.msb_eq_getLsbD_last p).symm
  rw [hmsb, BitVec.msb_eq_decide, decide_eq_true_eq]

theorem rollsOver_ncoStep_zero (p : Word) : rollsOver (ncoStep 0 p) = false := by
  have hsum : (ncoStep 0 p).toNat = p.toNat % 2 ^ 31 := ncoStep_toNat_of_le (by decide) p
  rw [← Bool.not_eq_true, rollsOver_iff, hsum]
  omega

/-- The frequency at cog start rolls over on every clock (70_reset_and_hazards.md R240). -/
theorem rollsOver_ncoStep_full (p : Word) : rollsOver (ncoStep 0x80000000 p) = true := by
  have hsum : (ncoStep 0x80000000 p).toNat = p.toNat % 2 ^ 31 + 2 ^ 31 := ncoStep_toNat_of_le (by decide) p
  rw [rollsOver_iff, hsum]
  omega

/-- Settles O39, from the sum of the masked phase and the frequency. -/
theorem ncoAddsTheFrequencyToTheMaskedPhase : Obligations.NcoAddsTheFrequencyToTheMaskedPhase :=
  fun f p => ⟨ncoStep_toNat f p, fun hf => ncoStep_toNat_of_le hf p, rollsOver_iff p, rollsOver_ncoStep_zero p⟩

/-- The phase sums up while no clock before the last one has rolled over. -/
theorem phase_of_no_earlier_rollover {f : Word} (hf : f.toNat ≤ 2 ^ 31) (k : Nat) (h : (k - 1) * f.toNat < 2 ^ 31) :
    ((ncoStep f)^[k] 0).toNat = k * f.toNat := by
  induction k with
  | zero => simp
  | succ k ih =>
    have hlt : k * f.toNat < 2 ^ 31 := h
    have hphase := ih (lt_of_le_of_lt (Nat.mul_le_mul_right _ (Nat.sub_le k 1)) hlt)
    rw [Function.iterate_succ_apply', ncoStep_toNat_of_le hf, hphase, Nat.mod_eq_of_lt hlt, Nat.succ_mul]

/-- Settles O40: the phase after `k` clocks is `k * f`, which reaches `2^31` when `k` reaches the ceiling. -/
theorem firstRolloverComesOnTheCeilingClock : Obligations.FirstRolloverComesOnTheCeilingClock := by
  intro f hpos hf k hk hle
  have hceil (j : Nat) : (2 ^ 31 + f.toNat - 1) / f.toNat ≤ j ↔ 2 ^ 31 ≤ j * f.toNat := by
    rw [← Nat.ceilDiv_eq_add_pred_div, ceilDiv_le_iff_le_mul hpos, Nat.mul_comm]
  have hbefore : (k - 1) * f.toNat < 2 ^ 31 := by
    rw [← not_le, ← hceil]
    omega
  rw [rollsOver_iff, phase_of_no_earlier_rollover hf k hbefore, ← hceil]
  omega

/-! ### Presenting an item -/

/-- The lookup word of the current item exists, if its mode looks one up (43_streamer_modes.md R190). -/
def ItemInRange (s : State) : Prop := ∀ a, s.str.lutTarget = some a → a < s.par.lutSize

theorem present_of_inRange {s : State} (h : ItemInRange s) : present s = .next s := by
  unfold present
  split
  · rename_i a ha
    exact if_pos (h a ha)
  · rfl

theorem present_of_outOfRange {s : State} {a : Nat} (ha : s.str.lutTarget = some a) (hout : s.par.lutSize ≤ a) :
    present s = .refused .lookupOutOfRange := by
  simp only [present, ha, Nat.not_lt.2 hout, if_false]

/-! ### The start of a command -/

theorem startedState_of_count_zero {c : Command} {s : State} (hcount : c.count = 0) :
    startedState c s = s.withStr (s.str.begin c) := if_pos hcount

theorem startedState_par (c : Command) (s : State) : (startedState c s).par = s.par := by
  simp only [startedState]
  split
  · rfl
  · split
    · rfl
    · split
      · rfl
      · rfl

theorem start_of_count_zero {c : Command} {s : State} (hcount : c.count = 0) :
    start c s = .next (startedState c s) := by
  rw [startedState_of_count_zero hcount]
  exact if_pos hcount

theorem start_of_count {c : Command} {s : State} (hcount : c.count ≠ 0) :
    start c s = loadFirst (s.withStr (s.str.begin c)) := if_neg hcount

/-- A start with a count and the data it needs comes down to presenting the first item. -/
theorem start_eq_present {c : Command} {s : State} {l : Layout} (hcount : c.count ≠ 0)
    (hl : (modeOf (c.d.extractLsb' 16 16)).layout = some l) (hready : l.fifo = true → s.fifo.rdReady = true) :
    start c s = present (startedState c s) := by
  have hl : (s.str.begin c).layout = some l := hl
  rw [start_of_count hcount]
  simp only [loadFirst, startedState, loadChunk, State.withStr_str, hl, if_neg hcount]
  split
  · rename_i hf
    exact if_pos (hready hf)
  · rfl

theorem start_of_startable {c : Command} {s : State} (h : Startable c s) : start c s = .next (startedState c s) := by
  by_cases hcount : c.count = 0
  · exact start_of_count_zero hcount
  · obtain ⟨l, hl, hready, hlut⟩ := h.resolve_left hcount
    rw [start_eq_present hcount hl hready]
    exact present_of_inRange fun a ha => startedState_par c s ▸ hlut a ha

theorem start_of_noLayout {c : Command} {s : State} (hcount : c.count ≠ 0)
    (hl : (modeOf (c.d.extractLsb' 16 16)).layout = none) :
    start c s = .refused (modeOf (c.d.extractLsb' 16 16)).refusal := by
  have hl : (s.str.begin c).layout = none := hl
  rw [start_of_count hcount]
  simp only [loadFirst, State.withStr_str, hl, Streamer.begin_xcmd]

theorem start_of_fifoNotReady {c : Command} {s : State} {l : Layout} (hcount : c.count ≠ 0)
    (hl : (modeOf (c.d.extractLsb' 16 16)).layout = some l) (hf : l.fifo = true) (hready : s.fifo.rdReady = false) :
    start c s = .refused .fifoNotReady := by
  have hl : (s.str.begin c).layout = some l := hl
  rw [start_of_count hcount]
  simp only [loadFirst, loadChunk, State.withStr_str, State.withStr_fifo, hl, hf, hready, if_true, Bool.false_eq_true,
    if_false]

/-- Every mode without a layout but the undefined one is a mode whose explanation is lost (43_streamer_modes.md R198). -/
theorem refusal_of_defined {m : Mode} (h : m ≠ .undefined) : m.refusal = .streamerModeNotSpecified := by
  cases m with
  | undefined => exact absurd rfl h
  | immLut | immPins | fifoLut | fifoPins | fifoRgb | pinsIn | adcIn | dds => rfl

/-- Settles O47: a start presents its first item once its mode and its FIFO allow it, and each refusal stands before that. -/
theorem startIsRefusedExactlyWhereTheSpecRefuses : Obligations.StartIsRefusedExactlyWhereTheSpecRefuses := by
  intro c s
  refine ⟨start_of_startable, fun hcount hmode => ?undefined, fun hcount hmode hl => ?lost,
    fun l => start_of_fifoNotReady, fun l a hcount hl hready ha hout => ?outOfRange⟩
  case undefined =>
    have hl : (modeOf (c.d.extractLsb' 16 16)).layout = none := by rw [hmode]; rfl
    rw [start_of_noLayout hcount hl, hmode]
    rfl
  case lost => rw [start_of_noLayout hcount hl, refusal_of_defined hmode]
  case outOfRange =>
    rw [start_eq_present hcount hl hready]
    exact present_of_outOfRange ha (by rwa [startedState_par])

/-! ### An advance to the next item -/

theorem advancedState_par (s : State) : (advancedState s).par = s.par := by
  simp only [advancedState]
  split
  · rfl
  · split
    · rfl
    · rfl

section chunks

variable {s : State} {l : Layout} (hl : s.str.layout = some l)

include hl

/-- The index enters a chunk: the data are the next bytes of the FIFO. -/
theorem advancedState_of_newChunk (hnew : l.fifo = true ∧ (s.str.xidx + 1) % l.values = 0) :
    advancedState s =
      (s.withStr { s.str with xidx := s.str.xidx + 1, xdat := s.fifo.value s.par.hubOrder (l.chunk / 8) }).withFifo
        (s.fifo.consume (l.chunk / 8)) := by
  have hl : Streamer.layout { s.str with xidx := s.str.xidx + 1 } = some l := hl
  simp only [advancedState, State.withStr_str, hl]
  exact if_pos hnew

/-- The index stays in its chunk, or the mode has only one: the data stay. -/
theorem advancedState_of_sameChunk (hsame : ¬(l.fifo = true ∧ (s.str.xidx + 1) % l.values = 0)) :
    advancedState s = s.withStr { s.str with xidx := s.str.xidx + 1 } := by
  have hl : Streamer.layout { s.str with xidx := s.str.xidx + 1 } = some l := hl
  simp only [advancedState, State.withStr_str, hl]
  exact if_neg hsame

/-- An advance of a mode that the FIFO allows comes down to presenting the next item. -/
theorem advance_eq_present (hready : l.fifo = true → s.fifo.rdReady = true) :
    advance s = present (advancedState s) := by
  have hnext : Streamer.layout { s.str with xidx := s.str.xidx + 1 } = some l := hl
  simp only [advance, State.withStr_str, hnext]
  by_cases hnew : l.fifo = true ∧ (s.str.xidx + 1) % l.values = 0
  · rw [advancedState_of_newChunk hl hnew]
    exact (if_pos hnew).trans (if_pos (hready hnew.1))
  · rw [advancedState_of_sameChunk hl hnew]
    exact if_neg hnew

end chunks

theorem advance_of_advanceable {s : State} (h : Advanceable s) : advance s = .next (advancedState s) := by
  obtain ⟨l, hl, hready, hlut⟩ := h
  rw [advance_eq_present hl hready]
  exact present_of_inRange fun a ha => advancedState_par s ▸ hlut a ha

/-! ### A rollover and a clock -/

theorem onRollover_of_buffered {s : State} {c : Command} (hbuf : s.str.xbuf = some c)
    (hlast : s.str.xcnt = 1 ∨ s.str.xcnt = 0xFFFF) :
    onRollover s = start c (s.withStr { s.str with xbuf := none }) := by
  rcases hlast with hone | hperp
  · have hcounted : (1 : BitVec 16) ≠ 0xFFFF := by decide
    simp only [onRollover, startBuffered, hbuf, hone, if_neg hcounted, if_true]
  · simp only [onRollover, startBuffered, hbuf, hperp, if_true]

theorem onRollover_of_final {s : State} (hbuf : s.str.xbuf = none) (hone : s.str.xcnt = 1) :
    onRollover s = .next (s.withStr { s.str with xcnt := 0 }) := by
  have hcounted : (1 : BitVec 16) ≠ 0xFFFF := by decide
  simp only [onRollover, startBuffered, hbuf, hone, if_neg hcounted, if_true]

theorem onRollover_of_perpetual {s : State} (hbuf : s.str.xbuf = none) (hperp : s.str.xcnt = 0xFFFF) :
    onRollover s = advance s := by
  simp only [onRollover, startBuffered, hbuf, hperp, if_true]

theorem onRollover_of_counted {s : State} (hmore : s.str.xcnt ≠ 1) (hcounted : s.str.xcnt ≠ 0xFFFF) :
    onRollover s = advance (s.withStr { s.str with xcnt := s.str.xcnt - 1 }) := by
  simp only [onRollover, if_neg hcounted, if_neg hmore]

/-- The state after the NCO step of a clock. -/
def State.phaseMoved (s : State) : State := s.withStr { s.str with xphs := ncoStep s.str.xfrq s.str.xphs }

theorem streamerClock_of_stopped {s : State} (hstop : s.str.xcnt = 0) : streamerClock s = .next s := if_pos hstop

theorem streamerClock_of_noRollover {s : State} (hrun : s.str.xcnt ≠ 0) (hdds : s.str.runsDds = false)
    (hroll : rollsOver (ncoStep s.str.xfrq s.str.xphs) = false) : streamerClock s = .next s.phaseMoved := by
  simp only [streamerClock, State.phaseMoved, State.withStr_str, if_neg hrun, hdds, hroll, Bool.false_eq_true, if_false]

theorem streamerClock_of_rollover {s : State} (hrun : s.str.xcnt ≠ 0) (hdds : s.str.runsDds = false)
    (hroll : rollsOver (ncoStep s.str.xfrq s.str.xphs) = true) : streamerClock s = onRollover s.phaseMoved := by
  simp only [streamerClock, State.phaseMoved, State.withStr_str, if_neg hrun, hdds, hroll, Bool.false_eq_true,
    if_false, if_true]

/-- Settles O42: without a rollover the NCO step is all; on a rollover the command advances, counted or perpetual. -/
theorem clockMovesThePhaseTheCountAndTheItem : Obligations.ClockMovesThePhaseTheCountAndTheItem := by
  intro s hrun hdds p d
  refine ⟨streamerClock_of_noRollover hrun hdds, fun hroll hmore hcounted hadv => ?counted,
    fun hroll hperp hbuf hadv => ?perpetual⟩
  case counted =>
    rw [streamerClock_of_rollover hrun hdds hroll]
    exact (onRollover_of_counted (s := p) hmore hcounted).trans (advance_of_advanceable hadv)
  case perpetual =>
    have hnext := advance_of_advanceable hadv
    obtain ⟨v, hstr⟩ := advance_str hnext
    rw [streamerClock_of_rollover hrun hdds hroll]
    exact ⟨(onRollover_of_perpetual (s := p) hbuf hperp).trans hnext, (congrArg (·.xcnt) hstr).trans hperp⟩

/-- Settles O43: the last rollover stops the streamer, or starts what waits in the buffer. -/
theorem finalRolloverStartsTheBufferedCommand : Obligations.FinalRolloverStartsTheBufferedCommand := by
  intro s hroll hdds p
  refine ⟨fun hone hbuf => ?stops, ?starts⟩
  case stops =>
    have hrun : s.str.xcnt ≠ 0 := by rw [hone]; decide
    rw [streamerClock_of_rollover hrun hdds hroll]
    exact onRollover_of_final (s := s.phaseMoved) hbuf hone
  case starts =>
    intro c hbuf hlast u hstart
    have hrun : s.str.xcnt ≠ 0 := by rcases hlast with h | h <;> simp [h]
    have hnext := start_of_startable hstart
    obtain ⟨v, hstr⟩ := start_str hnext
    rw [streamerClock_of_rollover hrun hdds hroll]
    exact ⟨(onRollover_of_buffered (s := s.phaseMoved) hbuf hlast).trans hnext, congrArg (·.xbuf) hstr,
      congrArg (·.xcnt) hstr, congrArg (·.xphs) hstr⟩

/-- Settles O41: the clock's first test, and the premise of every override. -/
theorem stoppedStreamerDoesNothing : Obligations.StoppedStreamerDoesNothing := by
  intro s hstop
  have hpins : xpin s = 0 := by simp [xpin, hstop]
  refine ⟨streamerClock_of_stopped hstop, hpins, ?_, fun hcs => dacOut_of_stopped hcs hstop⟩
  simp [pinOut, hpins]

/-! ### A hold -/

theorem blocked_iff (s : State) : blocked s = true ↔ s.str.xcnt ≠ 0 ∧ s.str.xbuf.isSome = true := by
  simp [blocked]

/-- Settles O30: of what a clock can do, only a start takes the waiting command, and a counted rollover leaves a count that
is not 0. -/
theorem holdIsLiftedOnlyByTheBufferedStart : Obligations.HoldIsLiftedOnlyByTheBufferedStart := by
  intro s t hblocked h hfree
  obtain ⟨hrun, hfull⟩ := (blocked_iff s).1 hblocked
  have hwaits : s.str.xbuf ≠ none := Option.isSome_iff_ne_none.1 hfull
  rcases streamerClock_next h with ⟨hstop, -⟩ | ⟨-, -, ⟨-, rfl⟩ | ⟨hroll, h⟩⟩
  · exact absurd hstop hrun
  · exact (Bool.false_ne_true (hfree.symm.trans hblocked)).elim
  · rcases onRollover_next h with ⟨c, hbuf, hlast, h⟩ | ⟨hbuf, -, -⟩ | ⟨hbuf, -, -⟩ | ⟨-, hmore, h⟩
    · obtain ⟨v, hstr⟩ := start_str h
      exact ⟨hroll, hlast.symm, c, hbuf, congrArg (·.xbuf) hstr, congrArg (·.xcmd) hstr, congrArg (·.xcnt) hstr⟩
    · exact absurd hbuf hwaits
    · exact absurd hbuf hwaits
    · obtain ⟨v, hstr⟩ := advance_str h
      have hmore : s.str.xcnt ≠ 1 := hmore
      have hcount : s.str.xcnt - 1 ≠ 0 := fun h0 => hmore (by bv_omega)
      have hstill : blocked t = true := (blocked_iff t).2 (by simpa [hstr] using ⟨hcount, hfull⟩)
      exact (Bool.false_ne_true (hfree.symm.trans hstill)).elim

end Sys2Proof.Machine

/-! The statements of the family 42_streamer_instructions.md, second part: the streamer's instructions. Each command with
admitted operands comes down to a start, a place in the buffer or a hold. -/

namespace Sys2Proof.Machine

/-- Settles O23: the effect on the completed cog. -/
theorem setxfrqAndSetqTakeTheirOperand : Obligations.SetxfrqAndSetqTakeTheirOperand :=
  fun _ _ ho => ⟨withOperand_of_plain ho fun v t => t.withStr { t.str with xfrq := v },
    withOperand_of_plain ho fun v t => t.withCog { t.cog with qpend := some v }⟩

/-! ### XINIT and XSTOP -/

theorem commandRefusal_of_admitted {d o : Operand} {s : State} (h : CommandAdmitted d o s) :
    commandRefusal d o s = none := by
  obtain ⟨hd, ho, hq⟩ := h
  have hd : namesOutside s.par d = false := hd
  have ho : namesOutside s.par o = false := ho
  have hq : (s.cog.qpend.isSome && s.cog.qSplit) = false := hq
  simp [commandRefusal, hd, ho, hq]

/-- A start leaves the cog alone, so the completion is that of the cog before it. -/
theorem thenRetire_start {c : Command} {s u : State} (h : start c s = .next u) (immD immS : Bool) :
    thenRetire (start c s) immD immS = .next (u.withCog (s.cog.retire immD immS)) := by
  obtain ⟨hcog, -⟩ := start_same h
  rw [h, ← hcog]
  rfl

/-- With nothing buffered, or with count 0, XINIT starts its command over an empty buffer. -/
theorem initCommand_of_free {c : Command} {s : State} (h : s.str.xbuf = none ∨ c.count = 0) :
    initCommand c s = start c (s.withStr { s.str with xbuf := none }) := by
  unfold initCommand
  split
  · rename_i hfull
    exact if_pos (h.resolve_left (Option.isSome_iff_ne_none.1 hfull))
  · rename_i hfree
    have hempty : s.str.xbuf = none := by simpa using hfree
    have hsame : s.withStr { s.str with xbuf := none } = s := by rw [← hempty]; rfl
    rw [hsame]

theorem initCommand_of_buffered {c : Command} {s : State} (hfull : s.str.xbuf.isSome = true) (hcount : c.count ≠ 0) :
    initCommand c s = .refused .xinitOverBuffered := (if_pos hfull).trans (if_neg hcount)

theorem initWith_of_admitted {d o : Operand} {s : State} (h : CommandAdmitted d o s) :
    initWith d o s = thenRetire (initCommand (commandOf .init (valueD s.cog d) (valueS s.cog o) s) s) (isImmediate d)
      (isImmediate o) := by
  simp only [initWith, commandRefusal_of_admitted h]

/-- Settles O24: an XINIT that is not refused is the start of its command over an empty buffer. -/
theorem xinitStartsItsCommandAtOnce : Obligations.XinitStartsItsCommandAtOnce := by
  intro d o s h c u
  have hexec : exec (.xinit d o) s = thenRetire (initCommand c s) (isImmediate d) (isImmediate o) :=
    initWith_of_admitted h
  refine ⟨fun hfree hstart => ?starts, fun hfull hcount => ?refused⟩
  case starts =>
    have hnext := start_of_startable hstart
    obtain ⟨v, hstr⟩ := start_str hnext
    rw [hexec, initCommand_of_free hfree, thenRetire_start hnext]
    exact ⟨rfl, congrArg (·.xphs) hstr, congrArg (·.xcnt) hstr, congrArg (·.xbuf) hstr, congrArg (·.xfrq) hstr⟩
  case refused =>
    rw [hexec, initCommand_of_buffered hfull hcount]
    rfl

/-- XSTOP without pending immediate bits is the start of a command of count 0. -/
theorem execXstop_of_adjacent {s : State} (hs : s.cog.augs = none) (hd : s.cog.augd = none) (hq : SetqAdjacent s) :
    execXstop s = thenRetire (initCommand (commandOf .init 0 0 s) s) true true := by
  have hadmitted : CommandAdmitted (.imm 0) (.imm 0) s := ⟨rfl, rfl, hq⟩
  simp only [execXstop, hs, hd, Option.isSome_none, Bool.or_false, Bool.false_eq_true, if_false,
    commandRefusal_of_admitted hadmitted]

/-- The registers of a stopped streamer. -/
theorem Streamer.begin_zeros (x : Streamer) (s : State) :
    x.begin (commandOf .init 0 0 s) =
      { x with xfrq := s.cog.qpend.getD x.xfrq, xphs := 0, xcnt := 0, xcmd := 0, xsrc := 0, xidx := 0 } := by
  simp [Streamer.begin, commandOf]

/-- Settles O25: a command of count 0 starts over any buffer and only sets the streamer's registers. -/
theorem xstopStopsTheStreamer : Obligations.XstopStopsTheStreamer := by
  intro s hs hd hq
  have hzero : (commandOf .init 0 0 s).count = 0 := rfl
  have hnext := start_of_count_zero (s := s.withStr { s.str with xbuf := none }) hzero
  calc exec .xstop s
    _ = thenRetire (initCommand (commandOf .init 0 0 s) s) true true := execXstop_of_adjacent hs hd hq
    _ = thenRetire (start (commandOf .init 0 0 s) (s.withStr { s.str with xbuf := none })) true true := by
        rw [initCommand_of_free (.inr hzero)]
    _ = _ := by
        rw [thenRetire_start hnext, startedState_of_count_zero hzero, Streamer.begin_zeros]
        rfl

/-- Settles O26: with immediate bits pending XSTOP is defined so; without them, and without a GETXACC value, the two zeros
are the values of the operands. -/
theorem xstopIsXinitOfZeros : Obligations.XstopIsXinitOfZeros := by
  intro s h
  by_cases haug : (s.cog.augd.isSome || s.cog.augs.isSome) = true
  · exact if_pos haug
  · obtain ⟨hd, hs⟩ : s.cog.augd = none ∧ s.cog.augs = none := by simpa using haug
    have hnexts : s.cog.nexts = none := by simpa [hd, hs] using h
    have hvalueD : valueD s.cog (.imm 0) = 0 := by rw [valueD_imm, hd]; rfl
    have hvalueS : valueS s.cog (.imm 0) = 0 := by rw [valueS_imm, hnexts, hs]; rfl
    show execXstop s = initWith (.imm 0) (.imm 0) s
    rw [execXstop, if_neg haug, initWith, hvalueD, hvalueS]
    rfl

/-! ### XZERO and XCONT -/

section buffer

variable {d o : Operand} {s : State} (h : CommandAdmitted d o s) (kind : CmdKind)

include h

theorem bufferCommand_of_stopped (hstop : s.str.xcnt = 0) :
    bufferCommand kind d o s = thenRetire (start (commandOf kind (valueD s.cog d) (valueS s.cog o) s) s) (isImmediate d)
      (isImmediate o) := by
  simp only [bufferCommand, commandRefusal_of_admitted h, if_pos hstop]

theorem bufferCommand_of_empty (hrun : s.str.xcnt ≠ 0) (hempty : s.str.xbuf = none) :
    bufferCommand kind d o s = .next ((s.withStr { s.str with
        xbuf := some (commandOf kind (valueD s.cog d) (valueS s.cog o) s) }).withCog
      (s.cog.retire (isImmediate d) (isImmediate o))) := by
  simp only [bufferCommand, commandRefusal_of_admitted h, if_neg hrun, hempty, Option.isSome_none, Bool.false_eq_true,
    if_false]

theorem bufferCommand_of_full (hrun : s.str.xcnt ≠ 0) (hfull : s.str.xbuf.isSome = true) :
    bufferCommand kind d o s = .next s := by
  simp only [bufferCommand, commandRefusal_of_admitted h, if_neg hrun, hfull, if_true]

/-- A startable command on a stopped streamer: the next state, and the phase by the kind (42_streamer_instructions.md R140,
R141). -/
theorem bufferCommand_of_startable (hstop : s.str.xcnt = 0)
    (hstart : Startable (commandOf kind (valueD s.cog d) (valueS s.cog o) s) s) :
    let u := startedState (commandOf kind (valueD s.cog d) (valueS s.cog o) s) s
    bufferCommand kind d o s = .next (u.withCog (s.cog.retire (isImmediate d) (isImmediate o))) ∧
      u.str.xphs = if kind = .cont then s.str.xphs else 0 := by
  have hnext := start_of_startable hstart
  obtain ⟨v, hstr⟩ := start_str hnext
  rw [bufferCommand_of_stopped h kind hstop, thenRetire_start hnext]
  exact ⟨rfl, congrArg (·.xphs) hstr⟩

end buffer

/-- Settles O27: a start, whose phase rule is that of the kind. -/
theorem xzeroAndXcontStartOnAStoppedStreamer : Obligations.XzeroAndXcontStartOnAStoppedStreamer :=
  fun _ _ _ h hstop => ⟨bufferCommand_of_startable h .zero hstop, bufferCommand_of_startable h .cont hstop⟩

/-- Settles O28: a place in the buffer, for either kind. -/
theorem xzeroAndXcontFillTheEmptyBuffer : Obligations.XzeroAndXcontFillTheEmptyBuffer :=
  fun _ _ _ h hrun hempty => ⟨bufferCommand_of_empty h .zero hrun hempty, bufferCommand_of_empty h .cont hrun hempty⟩

/-! ### A hold -/

/-- The instruction `i` is an admitted XZERO or XCONT on a full buffer. -/
structure Held (i : Instr) (s : State) : Prop where
  admitted : ∃ d o, (i = .xzero d o ∨ i = .xcont d o) ∧ CommandAdmitted d o s
  running : s.str.xcnt ≠ 0
  full : s.str.xbuf.isSome = true

theorem Held.exec {i : Instr} {s : State} (h : Held i s) : exec i s = .next s := by
  obtain ⟨⟨d, o, rfl | rfl, hadmitted⟩, hrun, hfull⟩ := h
  · exact bufferCommand_of_full hadmitted .zero hrun hfull
  · exact bufferCommand_of_full hadmitted .cont hrun hfull

theorem Held.holds {i : Instr} {s : State} (h : Held i s) : holds i s = true := by
  obtain ⟨⟨d, o, rfl | rfl, -⟩, hrun, hfull⟩ := h
  · exact (blocked_iff s).2 ⟨hrun, hfull⟩
  · exact (blocked_iff s).2 ⟨hrun, hfull⟩

/-- A held turn changes the scheduling only. -/
theorem Held.step {i : Instr} {s : State} (h : Held i s) (hdue : s.sched.due = 0) (hfetch : fetch s = .instr i) :
    step s = .next (endTurn true s) := by
  rw [step_of_turn hdue hfetch, cogTurn, h.exec, h.holds]

/-- Settles O29: the held turn, after which one clock more than the free number is due. -/
theorem fullBufferHoldsTheCog : Obligations.FullBufferHoldsTheCog := by
  intro d o s h hrun hfull
  refine ⟨bufferCommand_of_full h .zero hrun hfull, bufferCommand_of_full h .cont hrun hfull, fun i hi hdue hfetch => ?_⟩
  have hheld : Held i s := ⟨⟨d, o, hi, h⟩, hrun, hfull⟩
  exact ⟨_, hheld.step hdue hfetch, rfl, rfl, Nat.succ_pos _⟩

/-- A hold at frequency 0, with the instruction at the program counter. -/
structure HeldAtZero (i : Instr) (s : State) : Prop extends Held i s where
  fetched : fetch s = .instr i
  zeroFreq : s.str.xfrq = 0
  noDds : s.str.runsDds = false

/-- What a hold at frequency 0 leaves as it is. -/
def SameHold (s t : State) : Prop :=
  t.cog.pc = s.cog.pc ∧ t.str.xcnt = s.str.xcnt ∧ t.str.xbuf = s.str.xbuf

/-- At frequency 0 a clock moves the phase and the pin inputs only, and these touch no premise of the hold. -/
theorem HeldAtZero.systemClock {i : Instr} {s : State} (h : HeldAtZero i s) :
    ∃ t, systemClock s = .next t ∧ HeldAtZero i t ∧ SameHold s t := by
  have hroll : rollsOver (ncoStep s.str.xfrq s.str.xphs) = false := by rw [h.zeroFreq, rollsOver_ncoStep_zero]
  obtain ⟨⟨hadmitted, hrun, hfull⟩, hfetch, hfreq, hdds⟩ := h
  exact ⟨_, streamerClock_of_noRollover (s := samplePinInputs s) hrun hdds hroll,
    ⟨⟨hadmitted, hrun, hfull⟩, hfetch, hfreq, hdds⟩, rfl, rfl, rfl⟩

/-- The scheduling part is no premise of the hold. -/
theorem HeldAtZero.withSched {i : Instr} {s : State} (h : HeldAtZero i s) (c : Sched) : HeldAtZero i (s.withSched c) := by
  obtain ⟨⟨hadmitted, hrun, hfull⟩, hfetch, hfreq, hdds⟩ := h
  exact ⟨⟨hadmitted, hrun, hfull⟩, hfetch, hfreq, hdds⟩

theorem HeldAtZero.step {i : Instr} {s : State} (h : HeldAtZero i s) :
    ∃ t, step s = .next t ∧ HeldAtZero i t ∧ SameHold s t := by
  by_cases hdue : s.sched.due = 0
  · exact ⟨_, h.toHeld.step hdue h.fetched, h.withSched _, rfl, rfl, rfl⟩
  · rw [step_of_due hdue]
    exact (h.withSched _).systemClock

theorem HeldAtZero.reaches {i : Instr} (k : Nat) {s : State} (h : HeldAtZero i s) :
    ∃ t, Reaches k s t ∧ SameHold s t := by
  induction k generalizing s with
  | zero => exact ⟨s, rfl, rfl, rfl, rfl⟩
  | succ k ih =>
    obtain ⟨u, hu, hheld, hpc, hcnt, hbuf⟩ := h.step
    obtain ⟨t, ht, hpc', hcnt', hbuf'⟩ := ih hheld
    refine ⟨t, ?_, hpc'.trans hpc, hcnt'.trans hcnt, hbuf'.trans hbuf⟩
    have hcore : Host.Core.step Sys2Proof.core s = .next u := hu
    simpa only [Reaches, Host.Core.run, hcore] using ht

/-- Settles O31, by induction on the number of steps. -/
theorem holdAtZeroFrequencyNeverLifts : Obligations.HoldAtZeroFrequencyNeverLifts := by
  intro k d o i s hi hadmitted hfetch hrun hfull hfreq hdds
  exact HeldAtZero.reaches k ⟨⟨⟨d, o, hi, hadmitted⟩, hrun, hfull⟩, hfetch, hfreq, hdds⟩

/-! ### GETXACC and the values that wait for an instruction -/

theorem execGetxacc_of_writable {d : Reg} {s : State} (h : Writable d s) :
    execGetxacc d s = .next (readAccumulators d (drawGoertzel s)) := by
  obtain ⟨hgeneral, htext⟩ := h
  simp [execGetxacc, hgeneral, htext]

/-- Settles O32: the drawn values are read out in the same instruction. -/
theorem getxaccMovesAndClearsTheAccumulators : Obligations.GetxaccMovesAndClearsTheAccumulators :=
  fun _ _ h => execGetxacc_of_writable h

theorem valueS_of_nexts {c : Cog} {y : Word} (h : c.nexts = some y) (o : Operand) : valueS c o = y := by
  simp only [valueS, h]

/-- An XINIT that answers has its operands' values in the streamer's registers, and its cog is the completed one. -/
theorem exec_xinit_next {d o : Operand} {s t : State} (h : exec (.xinit d o) s = .next t) :
    t.str.xsrc = valueS s.cog o ∧ t.str.xfrq = s.cog.qpend.getD s.str.xfrq ∧ t.cog.qpend = none ∧
      t.cog.nexts = none := by
  obtain ⟨-, u, hu, rfl⟩ := initWith_next h
  obtain ⟨buf, hstart⟩ : ∃ buf, start (commandOf .init (valueD s.cog d) (valueS s.cog o) s)
      (s.withStr { s.str with xbuf := buf }) = .next u := by
    rcases initCommand_next hu with ⟨-, hstart⟩ | ⟨-, -, hstart⟩
    · exact ⟨s.str.xbuf, hstart⟩
    · exact ⟨none, hstart⟩
  obtain ⟨v, hstr⟩ := start_str hstart
  exact ⟨congrArg (·.xsrc) hstr, congrArg (·.xfrq) hstr, rfl, rfl⟩

/-- Settles O33: the Y value stands for every S operand, and the instruction that takes it completes without it. -/
theorem getxaccFeedsTheNextSOperand : Obligations.GetxaccFeedsTheNextSOperand := by
  intro d s t h
  obtain ⟨-, -, rfl⟩ := execGetxacc_next h
  refine ⟨_, rfl, valueS_of_nexts rfl, fun e o he ho => ?mulpix, fun e o u hu => ?xinit⟩
  case mulpix =>
    have hlane : LaneIs (fun _ sb => sb) (fun _ _ => 0) fun db sb => pixLane db sb sb 0 := fun _ _ => rfl
    exact hlane.pixelOp he ho
  case xinit =>
    obtain ⟨hsrc, -, -, hnexts⟩ := exec_xinit_next hu
    exact ⟨hsrc, hnexts⟩

/-- A record in the buffer carries the pending SETQ value; the running frequency stays. -/
theorem bufferCommand_setq {kind : CmdKind} {d o : Operand} {s t : State} (hrun : s.str.xcnt ≠ 0)
    (hempty : s.str.xbuf = none) (h : bufferCommand kind d o s = .next t) :
    t.str.xfrq = s.str.xfrq ∧ ∃ c, t.str.xbuf = some c ∧ c.q = s.cog.qpend := by
  obtain ⟨-, ⟨hstop, -⟩ | ⟨hheld, -⟩ | ⟨-, -, rfl⟩⟩ := bufferCommand_next h
  · exact absurd hstop hrun
  · obtain ⟨-, hfull⟩ := (blocked_iff s).1 hheld
    exact absurd hempty (Option.isSome_iff_ne_none.1 hfull)
  · exact ⟨rfl, _, rfl, rfl⟩

/-- Settles O37: the three moments of a SETQ value, at XINIT, on entering the buffer and at the start from it. -/
theorem setqFrequencyActsWhenTheCommandStarts : Obligations.SetqFrequencyActsWhenTheCommandStarts := by
  refine ⟨fun d o s t h => ?xinit, fun d o s t hrun hempty h => ?buffered, fun c s t hbuf hlast hroll h => ?clock⟩
  case xinit =>
    obtain ⟨-, hfreq, hqpend, -⟩ := exec_xinit_next h
    exact ⟨hfreq, hqpend⟩
  case buffered =>
    rcases h with h | h
    · exact bufferCommand_setq hrun hempty (kind := .zero) h
    · exact bufferCommand_setq hrun hempty (kind := .cont) h
  case clock =>
    have hrun : s.str.xcnt ≠ 0 := by rcases hlast with h | h <;> simp [h]
    rcases streamerClock_next h with ⟨hstop, -⟩ | ⟨-, hdds, -⟩
    · exact absurd hstop hrun
    · rw [streamerClock_of_rollover hrun hdds hroll, onRollover_of_buffered (s := s.phaseMoved) hbuf hlast] at h
      obtain ⟨v, hstr⟩ := start_str h
      exact congrArg (·.xfrq) hstr

end Sys2Proof.Machine

/-! The statements of the family 42_streamer_instructions.md, third part: a command at one rollover per clock. `AtItem` says
what a streamer presents that has moved on by a number of items; an advance leads from one item to the next, and the two
statements are its readings for the modes whose data are S and for those that read the FIFO. -/

namespace Sys2Proof.Machine

/-! ### The chunks of a mode hold its values -/

/-- The mode's values, if the spec gives them, have at least one bit and fit their chunk. -/
def Mode.FitsChunk (m : Mode) : Prop := ∀ l, m.layout = some l → 0 < l.w ∧ l.w ≤ l.chunk

theorem shapeTwo_w (misc : Nat) : (shapeTwo misc).w = 2 := by
  unfold shapeTwo
  split
  · rfl
  · rfl

theorem shapeFour_w (misc : Nat) : (shapeFour misc).w = 4 ∨ (shapeFour misc).w = 8 ∨ (shapeFour misc).w = 16 := by
  unfold shapeFour
  split
  · exact .inr (.inl rfl)
  · exact .inr (.inl rfl)
  · exact .inr (.inl rfl)
  · exact .inr (.inr rfl)
  · split
    · exact .inl rfl
    · exact .inl rfl
    · exact .inl rfl

namespace Mode.FitsChunk

theorem of_layout {m : Mode} {l : Layout} (h : m.layout = some l) (hw : 0 < l.w ∧ l.w ≤ l.chunk) : m.FitsChunk := by
  intro l' h'
  obtain rfl : l = l' := Option.some.inj (h.symm.trans h')
  exact hw

theorem of_noLayout {m : Mode} (h : m.layout = none) : m.FitsChunk :=
  fun _ h' => nomatch h.symm.trans h'

theorem immPins {sh : Shape} (h : 0 < sh.w ∧ sh.w ≤ 32) : (Mode.immPins sh).FitsChunk := of_layout rfl h

theorem fifoPins {sh : Shape} (h : 0 < sh.w) : (Mode.fifoPins sh).FitsChunk := by
  refine of_layout rfl ⟨h, ?_⟩
  show sh.w ≤ fifoChunk sh.w
  unfold fifoChunk
  split
  · assumption
  · rfl

theorem modeSeven (misc : Nat) : (modeSeven misc).FitsChunk := by
  unfold Machine.modeSeven
  split
  case h_1 | h_2 => exact immPins (by decide)
  case h_10 => exact of_noLayout rfl
  all_goals exact of_layout rfl (by decide)

theorem modeEleven (misc : Nat) : (modeEleven misc).FitsChunk := by
  unfold Machine.modeEleven
  split
  case h_1 | h_2 => exact fifoPins (by decide)
  case h_3 => exact of_layout rfl (by decide)
  all_goals exact of_noLayout rfl

theorem modeFifteen (misc : Nat) (bit23 : Bool) : (modeFifteen misc bit23).FitsChunk := by
  unfold Machine.modeFifteen
  split
  all_goals exact of_noLayout rfl

end Mode.FitsChunk

/-- The rows of the mode table by their Mode field. -/
theorem modeOf_fitsChunk (x : BitVec 16) : (modeOf x).FitsChunk := by
  have hfour := shapeFour_w (miscField x)
  unfold modeOf
  split
  case h_1 | h_2 | h_3 | h_4 => exact .of_layout rfl (by decide)
  case h_5 => exact .immPins (by decide)
  case h_6 => exact .immPins (by rw [shapeTwo_w]; decide)
  case h_7 => exact .immPins (by omega)
  case h_8 => exact .modeSeven _
  case h_9 => exact .fifoPins (by decide)
  case h_10 => exact .fifoPins (by rw [shapeTwo_w]; decide)
  case h_11 => exact .fifoPins (by omega)
  case h_12 => exact .modeEleven _
  case h_13 | h_14 | h_15 => exact .of_noLayout rfl
  case h_16 => exact .modeFifteen _ _

theorem Streamer.values_pos {x : Streamer} {l : Layout} (hl : x.layout = some l) : 0 < l.values := by
  obtain ⟨hpos, hle⟩ := modeOf_fitsChunk x.xcmd l hl
  exact Nat.div_pos hle hpos

/-- The data of a mode that reads no FIFO are the 32 bits of S (43_streamer_modes.md R189). -/
theorem Mode.chunk_of_immediate {m : Mode} {l : Layout} (hl : m.layout = some l) (hf : l.fifo = false) :
    l.chunk = 32 := by
  cases m with
  | immLut w | immPins sh => cases hl; rfl
  | fifoLut w a | fifoPins sh => cases hl; cases hf
  | fifoRgb f =>
    cases f with
    | luma8 => cases hl; cases hf
    | rgbi8 | rgb8 | rgb16 | rgb24 => cases hl
  | pinsIn | adcIn | dds | undefined => cases hl

/-- A mode with a layout is no DDS row. -/
theorem Streamer.runsDds_of_layout {x : Streamer} {l : Layout} (hl : x.layout = some l) : x.runsDds = false := by
  unfold Streamer.layout at hl
  unfold Streamer.runsDds
  split
  · rename_i hmode
    rw [hmode] at hl
    cases hl
  · rfl

/-! ### The presented value and its lookup word -/

theorem Streamer.value_of_layout {x : Streamer} {l : Layout} (hl : x.layout = some l) :
    x.value = dataField x.xdat l.w (l.hasA && aBit x.xcmd) (itemIndex l x.xidx) := by
  simp only [Streamer.value, hl]

theorem dataField_lt (data : Word) (w : Nat) (a : Bool) (k : Nat) : (dataField data w a k).toNat < 2 ^ w := by
  rw [dataField, BitVec.toNat_ofNat]
  exact lt_of_le_of_lt (Nat.mod_le _ _) (Nat.mod_lt _ (Nat.two_pow_pos w))

/-- The words at the lookup base of the running command exist for all values of `w` bits (43_streamer_modes.md R190). -/
def LookupWordsExist (w : Nat) (s : State) : Prop :=
  ∀ b v, lutBase (modeOf s.str.xcmd) s.str.xcmd s.str.xsrc = some b → v < 2 ^ w → 32 * b + v < s.par.lutSize

theorem LookupWordsExist.itemInRange {s : State} {l : Layout} (h : LookupWordsExist l.w s)
    (hl : s.str.layout = some l) : ItemInRange s := by
  intro a ha
  obtain ⟨b, hb, rfl⟩ := Option.map_eq_some_iff.1 ha
  have hvalue : s.str.value.toNat < 2 ^ l.w := by
    rw [Streamer.value_of_layout hl]
    exact dataField_lt _ _ _ _
  exact h b _ hb hvalue

/-! ### The data after a number of items -/

/-- The chunks that the first `k` advances read: one for each chunk of values they complete (43_streamer_modes.md R188). -/
def chunksRead (l : Layout) (k : Nat) : Nat := if l.fifo then k / l.values else 0

theorem chunksRead_of_newChunk {l : Layout} {k : Nat} (h : l.fifo = true ∧ (k + 1) % l.values = 0) :
    chunksRead l (k + 1) = chunksRead l k + 1 := by
  obtain ⟨hf, hmod⟩ := h
  simp only [chunksRead, hf, if_true, Nat.succ_div, Nat.dvd_of_mod_eq_zero hmod]

theorem chunksRead_of_sameChunk {l : Layout} {k : Nat} (h : ¬(l.fifo = true ∧ (k + 1) % l.values = 0)) :
    chunksRead l (k + 1) = chunksRead l k := by
  unfold chunksRead
  split
  · rename_i hf
    have hmod : ¬l.values ∣ k + 1 := fun hdvd => h ⟨hf, Nat.mod_eq_zero_of_dvd hdvd⟩
    rw [Nat.succ_div, if_neg hmod, Nat.add_zero]
  · rfl

/-- The data in force when `m` chunks have been read since the state `s`. -/
def dataAfter (l : Layout) (s : State) : Nat → Word
  | 0 => s.str.xdat
  | m + 1 => s.fifo.valueAt s.par.hubOrder (s.fifo.rdPos + m * (l.chunk / 8)) (l.chunk / 8)

/-- The next value of the FIFO is the one a whole number of reads further on. -/
theorem Fifo.consume_value (f : Fifo) (m : Nat) (order : HubOrder) (n : Nat) :
    (f.consume m).value order n = f.valueAt order (f.rdPos + m) n := by
  rw [Fifo.value, Fifo.consume_valueAt, Fifo.consume_rdPos]

theorem Fifo.consume_consume (f : Fifo) (m n : Nat) : (f.consume m).consume n = f.consume (m + n) := by
  simp only [Fifo.consume, Nat.add_assoc]

/-- The state `t` presents the item `k` of the command that runs in `s`, whose index there is 0. -/
structure AtItem (l : Layout) (s : State) (k : Nat) (t : State) : Prop where
  xcmd : t.str.xcmd = s.str.xcmd
  xsrc : t.str.xsrc = s.str.xsrc
  xfrq : t.str.xfrq = s.str.xfrq
  xbuf : t.str.xbuf = s.str.xbuf
  xidx : t.str.xidx = k
  xdat : t.str.xdat = dataAfter l s (chunksRead l k)
  fifo : t.fifo = s.fifo.consume (chunksRead l k * (l.chunk / 8))
  lut : t.lut = s.lut
  par : t.par = s.par

namespace AtItem

variable {l : Layout} {s t : State} {k : Nat}

theorem refl (hidx : s.str.xidx = 0) : AtItem l s 0 s := by
  have hnone : chunksRead l 0 = 0 := by simp [chunksRead]
  exact ⟨rfl, rfl, rfl, rfl, hidx, by rw [hnone, dataAfter], by rw [hnone, Nat.zero_mul]; rfl, rfl, rfl⟩

/-- The phase and the count say nothing of the item. -/
theorem with_phase_count (h : AtItem l s k t) (p : Word) (n : BitVec 16) :
    AtItem l s k (t.withStr { t.str with xphs := p, xcnt := n }) := by
  obtain ⟨hcmd, hsrc, hfrq, hbuf, hidx, hdat, hfifo, hlut, hpar⟩ := h
  exact ⟨hcmd, hsrc, hfrq, hbuf, hidx, hdat, hfifo, hlut, hpar⟩

theorem layout (h : AtItem l s k t) : t.str.layout = s.str.layout := congrArg (fun x => (modeOf x).layout) h.xcmd

theorem lookupWordsExist (h : AtItem l s k t) {w : Nat} (hlut : LookupWordsExist w s) : LookupWordsExist w t := by
  simpa only [LookupWordsExist, h.xcmd, h.xsrc, h.par] using hlut

/-- The next item: the same chunk, or the FIFO's next one. -/
theorem advancedState (h : AtItem l s k t) (hl : s.str.layout = some l) : AtItem l s (k + 1) (advancedState t) := by
  have hlt : t.str.layout = some l := h.layout.trans hl
  obtain ⟨hcmd, hsrc, hfrq, hbuf, hidx, hdat, hfifo, hlut, hpar⟩ := h
  by_cases hnew : l.fifo = true ∧ (k + 1) % l.values = 0
  · rw [advancedState_of_newChunk hlt (hidx.symm ▸ hnew)]
    refine ⟨hcmd, hsrc, hfrq, hbuf, congrArg (· + 1) hidx, ?_, ?_, hlut, hpar⟩
    · rw [chunksRead_of_newChunk hnew, dataAfter, ← Fifo.consume_value, ← hfifo, ← hpar]
      rfl
    · rw [chunksRead_of_newChunk hnew, Nat.succ_mul, ← Fifo.consume_consume, ← hfifo]
      rfl
  · rw [advancedState_of_sameChunk hlt (hidx.symm ▸ hnew)]
    refine ⟨hcmd, hsrc, hfrq, hbuf, congrArg (· + 1) hidx, ?_, ?_, hlut, hpar⟩
    · rw [chunksRead_of_sameChunk hnew]
      exact hdat
    · rw [chunksRead_of_sameChunk hnew]
      exact hfifo

theorem value (h : AtItem l s k t) (hl : s.str.layout = some l) :
    t.str.value = dataField t.str.xdat l.w (l.hasA && aBit s.str.xcmd) (itemIndex l k) := by
  rw [Streamer.value_of_layout (h.layout.trans hl), h.xcmd, h.xidx]

end AtItem

/-! ### The clocks of a command at one rollover per clock -/

theorem runClocks_succ {k : Nat} {s t : State} (h : runClocks k s = .next t) : runClocks (k + 1) s = streamerClock t := by
  induction k generalizing s with
  | zero =>
    cases h
    cases hclock : streamerClock t with
    | next u | fault f | refused r => simp only [runClocks, hclock]
  | succ k ih =>
    rw [runClocks] at h
    cases hclock : streamerClock s with
    | next u =>
      simp only [hclock] at h
      rw [runClocks, hclock]
      exact ih h
    | fault f => simp [hclock] at h
    | refused r => simp [hclock] at h

/-- The premises of the two statements: a command with a layout runs from its first item, counted, at one rollover per clock,
with nothing waiting and all its lookup words in range. -/
structure RunsFromStart (l : Layout) (s : State) : Prop where
  layout : s.str.layout = some l
  ready : l.fifo = true → s.fifo.rdReady = true
  fullFreq : s.str.xfrq = 0x80000000
  empty : s.str.xbuf = none
  first : s.str.xidx = 0
  running : s.str.xcnt ≠ 0
  counted : s.str.xcnt ≠ 0xFFFF
  lookup : LookupWordsExist l.w s

namespace RunsFromStart

variable {l : Layout} {s t : State} {k : Nat} (hs : RunsFromStart l s)

include hs

theorem streamerClock_eq_onRollover (h : AtItem l s k t) (hrun : t.str.xcnt ≠ 0) :
    streamerClock t = onRollover t.phaseMoved := by
  have hroll : rollsOver (ncoStep t.str.xfrq t.str.xphs) = true := by rw [h.xfrq, hs.fullFreq, rollsOver_ncoStep_full]
  exact streamerClock_of_rollover hrun (Streamer.runsDds_of_layout (h.layout.trans hs.layout)) hroll

/-- A clock of a count above 1 counts down and moves to the next item. -/
theorem clock_of_counted (h : AtItem l s k t) (hrun : t.str.xcnt ≠ 0) (hmore : t.str.xcnt ≠ 1)
    (hcounted : t.str.xcnt ≠ 0xFFFF) :
    ∃ u, streamerClock t = .next u ∧ AtItem l s (k + 1) u ∧ u.str.xcnt = t.str.xcnt - 1 := by
  have hmoved := h.with_phase_count (ncoStep t.str.xfrq t.str.xphs) (t.str.xcnt - 1)
  have hready : l.fifo = true → t.fifo.rdReady = true := by rw [h.fifo]; exact hs.ready
  have hnext := hmoved.advancedState hs.layout
  have hclock := advance_eq_present (hmoved.layout.trans hs.layout) hready
  rw [present_of_inRange ((hnext.lookupWordsExist hs.lookup).itemInRange (hnext.layout.trans hs.layout))] at hclock
  obtain ⟨v, hstr⟩ := advance_str hclock
  refine ⟨_, ?_, hnext, congrArg (·.xcnt) hstr⟩
  rw [hs.streamerClock_eq_onRollover h hrun]
  exact (onRollover_of_counted (s := t.phaseMoved) hmore hcounted).trans hclock

/-- The clock of count 1 stops the streamer on its last item. -/
theorem clock_of_final (h : AtItem l s k t) (hone : t.str.xcnt = 1) :
    ∃ u, streamerClock t = .next u ∧ AtItem l s k u ∧ u.str.xcnt = 0 := by
  have hrun : t.str.xcnt ≠ 0 := by simp [hone]
  refine ⟨_, ?_, h.with_phase_count (ncoStep t.str.xfrq t.str.xphs) 0, rfl⟩
  rw [hs.streamerClock_eq_onRollover h hrun]
  exact onRollover_of_final (s := t.phaseMoved) (h.xbuf.trans hs.empty) hone

/-- After `k` clocks of a command of count N the item is `k`, and after all of them still `N - 1`. -/
theorem runClocks_atItem (k : Nat) (hk : k ≤ s.str.xcnt.toNat) :
    ∃ t, runClocks k s = .next t ∧ AtItem l s (min k (s.str.xcnt.toNat - 1)) t ∧
      t.str.xcnt.toNat = s.str.xcnt.toNat - k := by
  have hcounted := hs.counted
  induction k with
  | zero => exact ⟨s, rfl, by rw [Nat.zero_min]; exact .refl hs.first, rfl⟩
  | succ k ih =>
    obtain ⟨t, hclocks, hitem, hcnt⟩ := ih (by omega)
    rw [Nat.min_eq_left (by omega)] at hitem
    have hrun : t.str.xcnt ≠ 0 := by bv_omega
    rw [runClocks_succ hclocks]
    by_cases hone : t.str.xcnt = 1
    · obtain ⟨u, hu, hlast, hstop⟩ := hs.clock_of_final hitem hone
      have hend : k + 1 = s.str.xcnt.toNat := by bv_omega
      refine ⟨u, hu, ?_, ?_⟩
      · rwa [hend, Nat.min_eq_right (Nat.sub_le _ _), ← hend, Nat.add_sub_cancel]
      · rw [hstop, hend, Nat.sub_self]
        rfl
    · obtain ⟨u, hu, hnext, hless⟩ := hs.clock_of_counted hitem hrun hone (by bv_omega)
      refine ⟨u, hu, ?_, by bv_omega⟩
      rwa [Nat.min_eq_left (by bv_omega)]

end RunsFromStart

/-- Settles O44: S is the one chunk, and its last value repeats. -/
theorem immediateCommandPresentsItsItemsInTurn : Obligations.ImmediateCommandPresentsItsItemsInTurn := by
  intro l s k hl hf hfull hempty hfirst hrun hcounted hlut hk
  have hs : RunsFromStart l s := ⟨hl, by simp [hf], hfull, hempty, hfirst, hrun, hcounted, hlut⟩
  obtain ⟨t, hclocks, hitem, hcnt⟩ := hs.runClocks_atItem k hk
  have hnone (j : Nat) : chunksRead l j = 0 := by simp [chunksRead, hf]
  have hdat : t.str.xdat = s.str.xdat := by rw [hitem.xdat, hnone, dataAfter]
  have hfifo : t.fifo = s.fifo := by rw [hitem.fifo, hnone, Nat.zero_mul]; rfl
  refine ⟨t, hclocks, hcnt, hitem.xcmd, hitem.xsrc, hdat, hitem.lut, hfifo, fun hlt => ?_⟩
  have hindex : itemIndex l k = min k (32 / l.w - 1) := by
    rw [itemIndex, hf, Layout.values, Mode.chunk_of_immediate hl hf]
    rfl
  rw [hitem.value hl, hdat, Nat.min_eq_left (by omega), hindex]

/-- Settles O45: one chunk for each `n` items, and value `k mod n` of it. -/
theorem fifoCommandReadsOneChunkPerItsValues : Obligations.FifoCommandReadsOneChunkPerItsValues := by
  intro l s k hl hf hready hfull hempty hfirst hrun hcounted hlut hk
  have hs : RunsFromStart l s := ⟨hl, fun _ => hready, hfull, hempty, hfirst, hrun, hcounted, hlut⟩
  obtain ⟨t, hclocks, hitem, hcnt⟩ := hs.runClocks_atItem k hk
  have hread (j : Nat) : chunksRead l j = j / l.values := by simp [chunksRead, hf]
  refine ⟨t, hclocks, hcnt, hitem.xcmd, hitem.xsrc, hitem.lut, hread _ ▸ hitem.fifo, fun hlt => ?_⟩
  have hmin : min k (s.str.xcnt.toNat - 1) = k := Nat.min_eq_left (by omega)
  have hindex : itemIndex l k = k % l.values := by rw [itemIndex, hf]; rfl
  refine ⟨by rw [hitem.value hl, hmin, hindex], ?_⟩
  rw [hitem.xdat, hmin, hread]
  split
  · rename_i hlow
    rw [Nat.div_eq_of_lt hlow, dataAfter]
  · rename_i hhigh
    obtain ⟨m, hm⟩ : ∃ m, k / l.values = m + 1 :=
      Nat.exists_eq_succ_of_ne_zero (Nat.div_pos (Nat.not_lt.1 hhigh) (Streamer.values_pos hl)).ne'
    rw [hm, dataAfter, Nat.add_sub_cancel]

end Sys2Proof.Machine

/-! The statements of the family 43_streamer_modes.md, first part: the command word and the data. The fields of a command word
are read as numbers; the mode table is settled row by row along the Mode field, its three mixed rows by finite facts on Misc. -/

namespace Sys2Proof.Machine

/-! ### The fields of the command word as numbers -/

theorem modeField_eq (x : BitVec 16) : modeField x = x.toNat / 2 ^ 12 := by
  rw [modeField, BitVec.extractLsb'_toNat, Nat.shiftRight_eq_div_pow]
  omega

theorem modeField_lt (x : BitVec 16) : modeField x < 16 := (x.extractLsb' 12 4).isLt

theorem pppField_eq (x : BitVec 16) : pppField x = x.toNat / 16 % 8 := by
  rw [pppField, BitVec.extractLsb'_toNat, Nat.shiftRight_eq_div_pow]

theorem miscField_eq (x : BitVec 16) : miscField x = x.toNat % 2 ^ 4 := by
  rw [miscField, BitVec.extractLsb'_toNat, Nat.shiftRight_zero]

theorem miscField_lt (x : BitVec 16) : miscField x < 16 := (x.extractLsb' 0 4).isLt

/-! ### The mixed rows of the mode table -/

theorem modeSeven_of_ge {misc : Nat} (h : 9 ≤ misc) : modeSeven misc = .undefined := by
  obtain ⟨k, rfl⟩ := Nat.exists_eq_add_of_le' h
  rfl

theorem modeEleven_of_ge {misc : Nat} (h : 7 ≤ misc) : modeEleven misc = .undefined := by
  obtain ⟨k, rfl⟩ := Nat.exists_eq_add_of_le' h
  rfl

/-- Mode 0111 (43_streamer_modes.md R176). -/
theorem modeSeven_missing : ∀ misc : Fin 16,
    (modeSeven misc = .undefined ↔ 9 ≤ misc.val) ∧ ((modeSeven misc).layout = none ↔ 9 ≤ misc.val) := by
  decide

/-- Mode 1011; its RGB rows but LUMA8 have lost their explanation (43_streamer_modes.md R176, R198). -/
theorem modeEleven_missing : ∀ misc : Fin 16,
    (modeEleven misc = .undefined ↔ 7 ≤ misc.val) ∧ ((modeEleven misc).layout = none ↔ 3 ≤ misc.val) := by
  decide

/-- Mode 1111 (43_streamer_modes.md R176, R198). -/
theorem modeFifteen_missing : ∀ (misc : Fin 16) (bit23 : Bool),
    (modeFifteen misc bit23 = .undefined ↔ 8 ≤ misc.val ∧ misc.val ≤ 14) ∧
      ((modeFifteen misc bit23).layout = none) := by
  decide

/-! ### The rows of all modes -/

/-- The 23 combinations without a row, and with them the rows whose behaviour the spec does not give
(43_streamer_modes.md R176, R198). -/
theorem modeOf_missing (x : BitVec 16) :
    (modeOf x = .undefined ↔
      (modeField x = 7 ∧ 9 ≤ miscField x) ∨ (modeField x = 11 ∧ 7 ≤ miscField x) ∨
        (modeField x = 15 ∧ 8 ≤ miscField x ∧ miscField x ≤ 14)) ∧
    ((modeOf x).layout = none ↔
      (modeField x = 7 ∧ 9 ≤ miscField x) ∨ (modeField x = 11 ∧ 3 ≤ miscField x) ∨ 12 ≤ modeField x) := by
  have hseven := modeSeven_missing ⟨_, miscField_lt x⟩
  have heleven := modeEleven_missing ⟨_, miscField_lt x⟩
  have hfifteen := modeFifteen_missing ⟨_, miscField_lt x⟩ (eBit x)
  have hmode := modeField_lt x
  unfold modeOf
  split
  case h_8 h => simp [h, hseven]
  case h_12 h => simp [h, heleven]
  case h_16 =>
    have h : modeField x = 15 := by grind
    simp [h, hfifteen]
  all_goals
    rename_i h
    simp [h, Mode.layout]

/-- The chunk of a RDFAST Pins/DACs row as a table of its width (43_streamer_modes.md R188). -/
theorem fifoChunk_eq {w : Nat} (h : w ≤ 8 ∨ w = 16 ∨ w = 32) :
    fifoChunk w = if w = 32 then 32 else if w = 16 then 16 else 8 := by
  unfold fifoChunk
  split_ifs <;> omega

/-- The widths of the RDFAST Pins/DACs rows (43_streamer_modes.md R174, R193). -/
theorem width_of_fifoPins {x : BitVec 16} {sh : Shape} (h : modeOf x = .fifoPins sh) :
    sh.w ≤ 8 ∨ sh.w = 16 ∨ sh.w = 32 := by
  have hfour := shapeFour_w (miscField x)
  unfold modeOf at h
  split at h
  case h_9 => cases h; decide
  case h_10 => cases h; rw [shapeTwo_w]; decide
  case h_11 => cases h; omega
  case h_8 => unfold modeSeven at h; split at h <;> cases h
  case h_12 =>
    unfold modeEleven at h
    split at h
    case h_1 | h_2 => cases h; decide
    all_goals cases h
  case h_16 => unfold modeFifteen at h; split at h <;> cases h
  all_goals cases h

/-- Entry `misc` of a row that lists a function's values. -/
theorem row_entry {f : Nat → Mode} {row : List Mode} {n misc : Nat} (hrow : row = (List.range n).map f)
    (hmisc : misc < n) : (row[misc]?).getD .undefined = f misc := by
  simp [hrow, hmisc]

/-- Any entry of a row whose function has no mode beyond the row's end. -/
theorem row_entry_of_beyond {f : Nat → Mode} {row : List Mode} {n : Nat} (hrow : row = (List.range n).map f)
    (hbeyond : ∀ {misc}, n ≤ misc → f misc = .undefined) (misc : Nat) : (row[misc]?).getD .undefined = f misc := by
  by_cases h : misc < n
  · exact row_entry hrow h
  · simp [hrow, hbeyond (Nat.not_lt.1 h), Nat.not_lt.1 h]

/-- Settles O46: the table row by row, the last entries of the mixed rows being those beyond a list's end. -/
theorem undefinedModesAreTheTwentyThree : Obligations.UndefinedModesAreTheTwentyThree := by
  intro x one two four sixteen thirtyTwo dds seven eleven fifteen rows
  obtain ⟨hundefined, hnone⟩ := modeOf_missing x
  refine ⟨?table, hundefined, hnone, fun _ h => congrArg Mode.layout h, fun _ h => congrArg Mode.layout h,
    fun _ _ h => congrArg Mode.layout h, ?fifoPins, congrArg Mode.layout⟩
  case fifoPins =>
    intro sh h
    rw [h, ← fifoChunk_eq (width_of_fifoPins h)]
    rfl
  case table =>
    have hentry {row : List Mode} {f : Nat → Mode} (hrow : row = (List.range 16).map f) :
        some ((row[miscField x]?).getD .undefined) = some (f (miscField x)) :=
      congrArg some (row_entry hrow (miscField_lt x))
    have hshapes (kind : Shape → Mode) {shapes : List Shape} {shape : Nat → Shape}
        (h : shapes = (List.range 16).map shape) :
        some (((shapes.map kind)[miscField x]?).getD .undefined) = some (kind (shape (miscField x))) :=
      hentry (f := kind ∘ shape) (by rw [h, List.map_map])
    have htwo : two = (List.range 16).map shapeTwo := rfl
    have hfour : four = (List.range 16).map shapeFour := rfl
    have hmode := modeField_lt x
    rw [← modeField_eq, ← miscField_eq]
    unfold modeOf
    split
    case h_1 h | h_2 h | h_3 h | h_4 h | h_5 h | h_9 h | h_13 h => rw [h]; exact hentry (f := fun _ => _) rfl
    case h_6 h | h_10 h | h_14 h => rw [h]; exact hshapes _ htwo
    case h_7 h | h_11 h | h_15 h => rw [h]; exact hshapes _ hfour
    case h_8 h => rw [h]; exact congrArg some (row_entry_of_beyond (n := 9) rfl modeSeven_of_ge _)
    case h_12 h => rw [h]; exact congrArg some (row_entry_of_beyond (n := 7) rfl modeEleven_of_ge _)
    case h_16 =>
      have h : modeField x = 15 := by grind
      rw [h]
      exact hentry (f := fun misc => modeFifteen misc (eBit x)) rfl

/-! ### The values of a chunk -/

theorem dataField_getLsbD (data : Word) (w k : Nat) {j : Nat} (hj : j < 32) :
    (dataField data w false k).getLsbD j = (decide (j < w) && data.getLsbD (k * w + j)) := by
  have hcut : dataField data w false k = BitVec.ofNat 32 ((data.toNat >>> (k * w)) % 2 ^ w) := by simp [dataField]
  rw [hcut, BitVec.getLsbD_ofNat, Nat.testBit_mod_two_pow, Nat.testBit_shiftRight, BitVec.testBit_toNat, decide_eq_true hj,
    Bool.true_and]

/-- Values of whole bytes have no order within a byte (43_streamer_modes.md R186). -/
theorem dataField_of_wide {w : Nat} (hw : 8 ≤ w) (data : Word) (a b : Bool) (k : Nat) :
    dataField data w a k = dataField data w b k := by
  simp [dataField, hw]

/-- The `j`-th of `n` values of `w` bits of a byte, top first, is the value the mirrored position has bottom first. -/
theorem dataField_mirrored {w n j : Nat} (hbyte : n * w = 8) (hw : w < 8) (hj : j < n) (data : Word) (byte : Nat) :
    dataField data w true (byte * n + j) = dataField data w false (byte * n + (n - 1 - j)) := by
  have hpos : 0 < w := Nat.pos_of_ne_zero fun h => by simp [h] at hbyte
  have hcount : 8 / w = n := Nat.div_eq_of_eq_mul_left hpos hbyte.symm
  have hstart : (byte * n + j) * w = byte * 8 + j * w := by rw [Nat.add_mul, Nat.mul_assoc, hbyte]
  have hwithin : j * w < 8 := hbyte ▸ Nat.mul_lt_mul_of_pos_right hj hpos
  have hbase : (byte * n + j) * w / 8 = byte := by omega
  have hoffset : (byte * n + j) * w % 8 / w = j := by
    have hmod : (byte * n + j) * w % 8 = j * w := by omega
    rw [hmod, Nat.mul_div_cancel j hpos]
  have hmirror : (byte * n + (n - 1 - j)) * w = 8 * byte + (n - 1 - j) * w := by
    rw [Nat.add_mul, Nat.mul_assoc, hbyte, Nat.mul_comm byte]
  simp [dataField, Nat.not_le.2 hw, hcount, hbase, hoffset, hmirror]

/-- Settles O49: `2 ^ e` divides 8 below the width of a byte. -/
theorem dataFieldTakesValuesInOrder : Obligations.DataFieldTakesValuesInOrder := by
  intro data e k he hk
  refine ⟨fun j hj => dataField_getLsbD data _ k hj, fun hw => dataField_of_wide hw data _ _ k, ?mirrored⟩
  case mirrored =>
    rintro byte j he2 hj rfl
    have hdvd : 2 ^ e ∣ 2 ^ 3 := Nat.pow_dvd_pow 2 (by omega)
    have hlt : 2 ^ e < 2 ^ 3 := Nat.pow_lt_pow_right (by decide) (by omega)
    exact dataField_mirrored (Nat.div_mul_cancel hdvd) hlt hj data byte

/-! ### The lookup word -/

theorem lutBase_immLut {x : BitVec 16} {w : Nat} (h : modeOf x = .immLut w) (xsrc : Word) :
    lutBase (modeOf x) x xsrc = some (x.toNat % 16) := by
  rw [h]
  exact congrArg some (miscField_eq x)

theorem lutBase_fifoLut {x : BitVec 16} {w : Nat} {a : Bool} (h : modeOf x = .fifoLut w a) (xsrc : Word) :
    lutBase (modeOf x) x xsrc = some (xsrc.toNat % 16) := by
  rw [h, lutBase, BitVec.extractLsb'_toNat, Nat.shiftRight_zero]

/-- The modes with a lookup base are those that read the lookup RAM (43_streamer_modes.md R190). -/
theorem lut_of_lutBase {m : Mode} {x : BitVec 16} {xsrc : Word} {b : Nat} (h : lutBase m x xsrc = some b) :
    (∃ w, m = .immLut w) ∨ ∃ w a, m = .fifoLut w a := by
  cases m with
  | immLut w => exact .inl ⟨w, rfl⟩
  | fifoLut w a => exact .inr ⟨w, a, rfl⟩
  | immPins | fifoPins | fifoRgb | pinsIn | adcIn | dds | undefined => cases h

theorem lutTarget_of_lutBase {x : Streamer} {b : Nat} (h : lutBase (modeOf x.xcmd) x.xcmd x.xsrc = some b) :
    x.lutTarget = some (32 * b + x.value.toNat) := by
  rw [Streamer.lutTarget, h]
  rfl

theorem channelsOf_word (v : Word) : (channelsOf v).word = v := pack_byteAt v

/-- The four channels of a lookup mode are its lookup word (43_streamer_modes.md R191, R194). -/
theorem xout_of_lutBase {s : State} {b : Nat} (h : lutBase (modeOf s.str.xcmd) s.str.xcmd s.str.xsrc = some b) :
    xout s = channelsOf (Bank.read s.lut (32 * b + s.str.value.toNat)) := by
  have htarget := lutTarget_of_lutBase h
  obtain ⟨w, hm⟩ | ⟨w, a, hm⟩ := lut_of_lutBase h
  · simp only [xout, hm, htarget, Option.getD_some]
  · simp only [xout, hm, htarget, Option.getD_some]

/-- Settles O48: the base field of either family gives the target and its word. -/
theorem lookupModesOutputTheAddressedWord : Obligations.LookupModesOutputTheAddressedWord := by
  intro s w a hmode b
  have hbase : lutBase (modeOf s.str.xcmd) s.str.xcmd s.str.xsrc = some b := by
    obtain hm | hm := hmode
    · simpa [b, hm] using lutBase_immLut hm s.str.xsrc
    · simpa [b, hm] using lutBase_fifoLut hm s.str.xsrc
  exact ⟨lutTarget_of_lutBase hbase, by rw [xout_of_lutBase hbase, channelsOf_word]⟩

end Sys2Proof.Machine

/-! The statements of the family 43_streamer_modes.md, second part: channels and pins. A channel and a pin are read bit by bit;
`placePins_getLsbD_iff` and `samplePins_getLsbD` tie the bits on pins to the bits of a value, in either direction. -/

namespace Sys2Proof.Machine

/-! ### Channel patterns -/

/-- Copies of a field repeat its bits. -/
theorem testBit_copies {m f : Nat} (hf : f < 2 ^ m) (c i : Nat) :
    (copies m f c).testBit i = (decide (i < m * c) && f.testBit (i % m)) := by
  induction c generalizing i with
  | zero => simp [copies]
  | succ c ih =>
    rw [copies, Nat.mul_comm (copies m f c), Nat.testBit_two_pow_mul_add _ hf]
    by_cases hlow : i < m
    · have hin : i < m * (c + 1) := lt_of_lt_of_le hlow (Nat.le_mul_of_pos_right m c.succ_pos)
      simp [hlow, hin, Nat.mod_eq_of_lt hlow]
    · have hge : m ≤ i := Nat.not_lt.1 hlow
      have hrange : i - m < m * c ↔ i < m * (c + 1) := by rw [Nat.mul_succ]; omega
      rw [if_neg hlow, ih, ← Nat.mod_eq_sub_mod hge]
      simp only [hrange]

theorem rep_getLsbD {m f : Nat} (hm : m ∣ 8) (hf : f < 2 ^ m) {i : Nat} (hi : i < 8) :
    (rep f m).getLsbD i = f.testBit (i % m) := by
  rw [rep, BitVec.getLsbD_ofNat, testBit_copies hf, Nat.mul_div_cancel' hm]
  simp [hi]

theorem chanByte_getLsbD {m : Nat} (hpos : 0 < m) (hm : m ∣ 8) (n : Nat) (v : Word) (j : Nat) {i : Nat} (hi : i < 8) :
    (chanByte n m v j).getLsbD i = (decide (j < n) && v.getLsbD (m * j + i % m)) := by
  unfold chanByte
  split
  case isTrue hj =>
    have hwithin : i % m < m := Nat.mod_lt i hpos
    rw [rep_getLsbD hm (Nat.mod_lt _ (Nat.two_pow_pos m)) hi, Nat.testBit_mod_two_pow, Nat.testBit_shiftRight,
      BitVec.testBit_toNat]
    simp [hj, hwithin]
  case isFalse hj => simp [hj]

theorem chan_get (n m : Nat) (v : Word) (j : Fin 4) : (chan n m v).get j = chanByte n m v j.val :=
  match j with
  | 0 | 1 | 2 | 3 => rfl

theorem xout_of_pinsDacs {s : State} {sh : Shape} (h : modeOf s.str.xcmd = .immPins sh ∨ modeOf s.str.xcmd = .fifoPins sh) :
    xout s = chan sh.n sh.m s.str.value := by
  obtain hm | hm := h
  · simp only [xout, hm]
  · simp only [xout, hm]

/-- Settles O50: a field width of the statement divides 8, so that copies fill a channel. -/
theorem channelsRepeatTheirFields : Obligations.ChannelsRepeatTheirFields := by
  refine ⟨fun e n v he _ j i hi => ?field, fun s sh h => xout_of_pinsDacs h⟩
  case field =>
    have hdvd : 2 ^ e ∣ 2 ^ 3 := Nat.pow_dvd_pow 2 he
    rw [chan_get, chanByte_getLsbD (Nat.two_pow_pos e) hdvd n v j.val hi]

theorem xout_of_luma8 {s : State} (h : modeOf s.str.xcmd = .fifoRgb .luma8) :
    xout s = luma8 (s.str.xsrc.toNat % 8) (s.str.value.setWidth 8) := by
  have hcolour : (s.str.xsrc.extractLsb' 0 3).toNat = s.str.xsrc.toNat % 8 := by
    rw [BitVec.extractLsb'_toNat, Nat.shiftRight_zero]
  simp only [xout, h, hcolour]

/-- No colour of LUMA8 uses channel 0 (43_streamer_modes.md R197). -/
theorem luma8_c0 (colour : Nat) (p : Byte) : (luma8 colour p).c0 = 0 := by
  unfold luma8
  split <;> rfl

/-- Settles O51: the rows of the colour table, one by one. -/
theorem lumaPixelsAreColoured : Obligations.LumaPixelsAreColoured := by
  intro s h p
  have hhalf : p >>> 1 = BitVec.ofNat 8 (p.toNat / 2) := by
    apply BitVec.eq_of_toNat_eq
    rw [BitVec.toNat_ushiftRight, BitVec.toNat_ofNat, Nat.shiftRight_eq_div_pow]
    omega
  have hcolour : s.str.xsrc.toNat % 8 < 8 := Nat.mod_lt _ (by decide)
  rw [xout_of_luma8 h, ← hhalf]
  generalize s.str.xsrc.toNat % 8 = colour at hcolour
  interval_cases colour <;> rfl

/-! ### DAC routing -/

theorem ddddField_lt (x : BitVec 16) : ddddField x < 16 := (x.extractLsb' 8 4).isLt

theorem dacOut_of_active {s : State} (hcs : s.dac.csOn = false) (hrun : s.str.xcnt ≠ 0) (n : Fin 4) :
    dacOut s n = (route (ddddField s.str.xcmd) n).apply (xout s) (s.dac.bg.get n) := by
  rw [dacOut, hcs, if_neg Bool.false_ne_true, if_pos hrun]

/-- Settles O21: the background by `dacOut_of_stopped`, and the sixteen rows one by one. -/
theorem dacRoutingFollowsTheTable : Obligations.DacRoutingFollowsTheTable := by
  intro s hcs x b now
  refine ⟨fun hstop => ?stopped, fun hrun => ?active⟩
  case stopped =>
    simp only [now, dacOut_of_stopped hcs hstop]
    rfl
  case active =>
    have hcomplement (v : Byte) : ~~~v = v ^^^ 0xFF := BitVec.xor_allOnes.symm
    have hdddd := ddddField_lt s.str.xcmd
    simp only [now, dacOut_of_active hcs hrun, hcomplement]
    generalize ddddField s.str.xcmd = dddd at hdddd
    interval_cases dddd <;> rfl

/-! ### Base pins -/

/-- The extra pin bits are below the pin group (43_streamer_modes.md R184, R185). -/
theorem shapeBase_div_eight (w : Nat) (x : BitVec 16) : shapeBase w x / 8 = pppField x := by
  rw [pppField_eq]
  unfold shapeBase
  split
  case h_1 | h_2 | h_3 =>
    rw [BitVec.extractLsb'_toNat, Nat.shiftRight_eq_div_pow]
    omega
  case h_4 =>
    rw [pppField_eq]
    omega

theorem pinBase_div_eight (x : BitVec 16) : pinBase x / 8 = pppField x := by
  unfold pinBase
  split
  case h_1 | h_2 | h_3 => exact shapeBase_div_eight _ x
  case h_4 =>
    rw [pppField_eq, BitVec.extractLsb'_toNat, Nat.shiftRight_eq_div_pow]
    omega
  case h_5 => exact Nat.mul_div_cancel_left _ (by decide)

theorem pinBase_lt (x : BitVec 16) : pinBase x < 64 := by
  have hgroup := pinBase_div_eight x
  rw [pppField_eq] at hgroup
  omega

theorem pinBase_of_shape {x : BitVec 16} {sh : Shape}
    (h : modeOf x = .immPins sh ∨ modeOf x = .fifoPins sh ∨ modeOf x = .pinsIn sh) : pinBase x = shapeBase sh.w x := by
  obtain hm | hm | hm := h
  · simp only [pinBase, hm]
  · simp only [pinBase, hm]
  · simp only [pinBase, hm]

theorem shapeBase_one (x : BitVec 16) : shapeBase 1 x = x.toNat / 2 % 64 := by
  rw [shapeBase, BitVec.extractLsb'_toNat, Nat.shiftRight_eq_div_pow]

theorem shapeBase_two (x : BitVec 16) : shapeBase 2 x = 2 * (x.toNat / 4 % 32) := by
  rw [shapeBase, BitVec.extractLsb'_toNat, Nat.shiftRight_eq_div_pow]

theorem shapeBase_four (x : BitVec 16) : shapeBase 4 x = 4 * (x.toNat / 8 % 16) := by
  rw [shapeBase, BitVec.extractLsb'_toNat, Nat.shiftRight_eq_div_pow]

theorem shapeBase_of_wide {w : Nat} (hw : 8 ≤ w) (x : BitVec 16) : shapeBase w x = 8 * (x.toNat / 16 % 8) := by
  rw [← pppField_eq]
  unfold shapeBase
  split
  case h_1 | h_2 | h_3 => omega
  case h_4 => rfl

/-! ### Bits on pins -/

/-- Pin `p` carries the bit as far above `base` as `p` lies above it, pin numbers modulo 64. -/
theorem placePins_getLsbD {base p : Nat} (hbase : base < 64) (hp : p < 64) (pv : Word) :
    (placePins base pv).getLsbD p = pv.getLsbD ((64 - base + p) % 64) := by
  rw [placePins, BitVec.getLsbD_rotateLeft, Nat.mod_eq_of_lt hbase]
  by_cases hwrap : p < base
  · have hpos : (64 - base + p) % 64 = 64 - base + p := by omega
    have hin : 64 - base + p < 64 := by omega
    simp [hwrap, hpos, hin]
  · have hpos : (64 - base + p) % 64 = p - base := by omega
    have hin : p - base < 64 := by omega
    simp [hwrap, hp, hpos, hin]

/-- A pin shows a 1 exactly when some bit placed on it is 1 (43_streamer_modes.md R182, R184). -/
theorem placePins_getLsbD_iff {base p : Nat} (hbase : base < 64) (hp : p < 64) (pv : Word) :
    (placePins base pv).getLsbD p = true ↔ ∃ i, i < 32 ∧ (base + i) % 64 = p ∧ pv.getLsbD i = true := by
  rw [placePins_getLsbD hbase hp]
  constructor
  · intro hbit
    exact ⟨_, BitVec.lt_of_getLsbD hbit, by omega, hbit⟩
  · rintro ⟨i, hi, rfl, hbit⟩
    have hpos : (64 - base + (base + i) % 64) % 64 = i := by omega
    rwa [hpos]

/-- Bit `i` of a sample is pin `(base + i) mod 64` (43_streamer_modes.md R183). -/
theorem samplePins_getLsbD {base i : Nat} (hbase : base < 64) (hi : i < 32) (n : Nat) (pins : BitVec 64) :
    (samplePins base n pins).getLsbD i = (decide (i < n) && pins.getLsbD ((base + i) % 64)) := by
  rw [samplePins, BitVec.getLsbD_ofNat, Nat.testBit_mod_two_pow, BitVec.testBit_toNat,
    BitVec.getLsbD_rotateRight_of_lt hbase]
  by_cases hwrap : i < 64 - base
  · have hpin : (base + i) % 64 = base + i := by omega
    simp [hwrap, hi, hpin]
  · have hpin : (base + i) % 64 = i - (64 - base) := by omega
    have hin : i < 64 := by omega
    simp [hwrap, hi, hpin, hin]

/-- Settles O53, from the base pins and the bits on pins. -/
theorem pinGroupsWrapAround : Obligations.PinGroupsWrapAround := by
  refine ⟨pinBase_div_eight, fun ppp i pv hppp hi => ?output, fun ppp i pins hppp hi => ?input⟩
  case output =>
    have hpos : (64 - 8 * ppp + (8 * ppp + i) % 64) % 64 = i := by omega
    rw [placePins_getLsbD (by omega) (by omega), hpos]
  case input =>
    rw [samplePins_getLsbD (by omega) hi, decide_eq_true hi, Bool.true_and]

/-- Settles O54, from the base pin of each width and the bits of a sample. -/
theorem narrowModesResolveTheirPins : Obligations.NarrowModesResolveTheirPins := by
  refine ⟨fun x sh h => ?base, fun base n i pins hbase _ hi => samplePins_getLsbD hbase hi n pins⟩
  rw [pinBase_of_shape h]
  exact ⟨fun hw => hw ▸ shapeBase_one x, fun hw => hw ▸ shapeBase_two x, fun hw => hw ▸ shapeBase_four x,
    fun hw => shapeBase_of_wide hw x⟩

/-! ### The output of the pins -/

/-- A value of a mode with a layout has the bits of its width. -/
theorem Streamer.value_lt {x : Streamer} {l : Layout} (hl : x.layout = some l) : x.value.toNat < 2 ^ l.w := by
  rw [Streamer.value_of_layout hl]
  exact dataField_lt _ _ _ _

theorem pinValue_of_pinsDacs {s : State} {sh : Shape}
    (h : modeOf s.str.xcmd = .immPins sh ∨ modeOf s.str.xcmd = .fifoPins sh) :
    pinValue s = s.str.value ∧ s.str.value.toNat < 2 ^ sh.w := by
  obtain hm | hm := h
  · exact ⟨by simp only [pinValue, hm], Streamer.value_lt (congrArg Mode.layout hm)⟩
  · exact ⟨by simp only [pinValue, hm], Streamer.value_lt (congrArg Mode.layout hm)⟩

theorem pinValue_of_lutBase {s : State} {b : Nat} (h : lutBase (modeOf s.str.xcmd) s.str.xcmd s.str.xsrc = some b) :
    pinValue s = Bank.read s.lut (32 * b + s.str.value.toNat) := by
  have hword : (xout s).word = Bank.read s.lut (32 * b + s.str.value.toNat) := by
    rw [xout_of_lutBase h, channelsOf_word]
  obtain ⟨w, hm⟩ | ⟨w, a, hm⟩ := lut_of_lutBase h
  · simpa only [pinValue, hm] using hword
  · simpa only [pinValue, hm] using hword

theorem pinValue_of_luma8 {s : State} (h : modeOf s.str.xcmd = .fifoRgb .luma8) :
    pinValue s = pack (xout s).c3 (xout s).c2 (xout s).c1 0 := by
  have hblank : (xout s).c0 = 0 := by rw [xout_of_luma8 h, luma8_c0]
  simp only [pinValue, h, Channels.word, hblank]

/-- The streamer's part of a pin (43_streamer_modes.md R182). -/
theorem xpin_getLsbD_iff (s : State) {p : Nat} (hp : p < 64) :
    (xpin s).getLsbD p = true ↔
      s.str.xcnt ≠ 0 ∧ s.str.outputs = true ∧ eBit s.str.xcmd = true ∧
        ∃ i, i < 32 ∧ (pinBase s.str.xcmd + i) % 64 = p ∧ (pinValue s).getLsbD i = true := by
  unfold xpin
  split
  case isTrue h =>
    obtain ⟨hrun, houtputs, he⟩ := h
    rw [placePins_getLsbD_iff (pinBase_lt _) hp]
    exact ⟨fun hbit => ⟨hrun, houtputs, he, hbit⟩, fun ⟨_, _, _, hbit⟩ => hbit⟩
  case isFalse h =>
    exact ⟨fun hzero => by simp at hzero, fun ⟨hrun, houtputs, he, _⟩ => absurd ⟨hrun, houtputs, he⟩ h⟩

/-- Settles O55: the cog's part, the streamer's part, and the value of each family of output modes. -/
theorem pinOutputIsTheOrOfCogAndStreamer : Obligations.PinOutputIsTheOrOfCogAndStreamer := by
  intro s
  refine ⟨fun p hp => ?pin, fun sh h => ?pinsDacs, fun b h => pinValue_of_lutBase h, pinValue_of_luma8⟩
  case pin => rw [pinOut, BitVec.getLsbD_or, Bool.or_eq_true, xpin_getLsbD_iff s hp]
  case pinsDacs =>
    obtain ⟨hvalue, hlt⟩ := pinValue_of_pinsDacs h
    exact ⟨hvalue, hvalue ▸ hlt⟩

end Sys2Proof.Machine

/-! The statement of the family 60_exceptions.md: no instruction raises an exception (R220), and a step is refused or stops for
a named reason only (R221). `RaisesNoException` says what an answer of the operations below the fetch can be; every shared
operation keeps it, and so `exec` and the clocks have it. -/

namespace Sys2Proof.Machine

/-! ### Answers without an exception -/

/-- The reason is one that an instruction or a clock can give: neither the fetch's nor that of a missing meaning. -/
def Refusal.belowFetch : Refusal → Bool
  | .notModelled _ | .conditionNotModelled | .notAnInstruction => false
  | .notGeneralRegister | .writeToProgramText | .undefinedStreamerMode | .streamerModeNotSpecified => true
  | .lookupOutOfRange | .fifoNotReady | .xinitOverBuffered | .setqSplit => true

theorem Refusal.belowFetch_iff (r : Refusal) :
    r.belowFetch = true ↔ r ≠ .conditionNotModelled ∧ r ≠ .notAnInstruction ∧ ∀ m, r ≠ .notModelled m := by
  cases r <;> simp [belowFetch]

/-- The answer is a next state or a refusal that does not belong to the fetch: no fault. -/
inductive RaisesNoException : Result → Prop
  | next (t : State) : RaisesNoException (.next t)
  | refused {r : Refusal} (h : r.belowFetch = true) : RaisesNoException (.refused r)

namespace RaisesNoException

theorem ne_fault {a : Result} (h : RaisesNoException a) (f : Fault) : a ≠ .fault f := by
  cases h with
  | next t => exact nofun
  | refused hr => exact nofun

theorem refusal_belowFetch {a : Result} {r : Refusal} (h : RaisesNoException a) (ha : a = .refused r) :
    r.belowFetch = true := by
  subst ha
  cases h with
  | refused hr => exact hr

/-- A test between two answers. -/
theorem ite {p : Prop} [Decidable p] {a b : Result} (ha : RaisesNoException a) (hb : RaisesNoException b) :
    RaisesNoException (if p then a else b) := by
  split
  · exact ha
  · exact hb

/-- The completion of an instruction keeps the kind of its answer. -/
theorem thenRetire {a : Result} (h : RaisesNoException a) (immD immS : Bool) :
    RaisesNoException (thenRetire a immD immS) := by
  cases h with
  | next t => exact .next _
  | refused hr => exact .refused hr

end RaisesNoException

/-! ### The streamer's operations and its clock -/

theorem Mode.refusal_belowFetch (m : Mode) : m.refusal.belowFetch = true := by
  by_cases h : m = .undefined
  · subst h
    rfl
  · rw [refusal_of_defined h]
    rfl

theorem present_noException (s : State) : RaisesNoException (present s) := by
  unfold present
  split
  · exact .ite (.next _) (.refused rfl)
  · exact .next _

theorem loadChunk_noException (chunk : Nat) (s : State) : RaisesNoException (loadChunk chunk s) :=
  .ite (present_noException _) (.refused rfl)

theorem loadFirst_noException (s : State) : RaisesNoException (loadFirst s) := by
  unfold loadFirst
  split
  · exact .refused (Mode.refusal_belowFetch _)
  · exact .ite (loadChunk_noException _ _) (present_noException _)

theorem start_noException (c : Command) (s : State) : RaisesNoException (start c s) :=
  .ite (.next _) (loadFirst_noException _)

theorem advance_noException (s : State) : RaisesNoException (advance s) := by
  simp only [advance]
  split
  · exact .refused (Mode.refusal_belowFetch _)
  · exact .ite (loadChunk_noException _ _) (present_noException _)

theorem startBuffered_noException (s : State) {other : Result} (h : RaisesNoException other) :
    RaisesNoException (startBuffered s other) := by
  unfold startBuffered
  split
  · exact start_noException _ _
  · exact h

theorem onRollover_noException (s : State) : RaisesNoException (onRollover s) :=
  .ite (startBuffered_noException s (advance_noException s))
    (.ite (startBuffered_noException s (.next _)) (advance_noException _))

theorem streamerClock_noException (s : State) : RaisesNoException (streamerClock s) :=
  .ite (.next _) (.ite (.refused rfl) (.ite (onRollover_noException _) (.next _)))

theorem systemClock_noException (s : State) : RaisesNoException (systemClock s) := streamerClock_noException _

/-! ### The instructions -/

theorem withOperand_noException (o : Operand) (s : State) (effect : Word → State → State) :
    RaisesNoException (withOperand o s effect) := .ite (.refused rfl) (.next _)

theorem pixelOp_noException (dm sm : Byte → Byte → Byte) (d : Reg) (o : Operand) (s : State) :
    RaisesNoException (pixelOp dm sm d o s) := .ite (.refused rfl) (.ite (.refused rfl) (.next _))

theorem execGetxacc_noException (d : Reg) (s : State) : RaisesNoException (execGetxacc d s) :=
  .ite (.refused rfl) (.ite (.refused rfl) (.next _))

theorem commandRefusal_belowFetch {d o : Operand} {s : State} {r : Refusal} (h : commandRefusal d o s = some r) :
    r.belowFetch = true := by
  unfold commandRefusal at h
  split at h
  · cases h
    rfl
  · split at h
    · cases h
      rfl
    · cases h

theorem initCommand_noException (c : Command) (s : State) : RaisesNoException (initCommand c s) :=
  .ite (.ite (start_noException _ _) (.refused rfl)) (start_noException _ _)

theorem initWith_noException (d o : Operand) (s : State) : RaisesNoException (initWith d o s) := by
  unfold initWith
  split
  case h_1 hr => exact .refused (commandRefusal_belowFetch hr)
  case h_2 => exact (initCommand_noException _ _).thenRetire _ _

theorem execXstop_noException (s : State) : RaisesNoException (execXstop s) := by
  refine .ite (initWith_noException _ _ _) ?_
  split
  case h_1 hr => exact .refused (commandRefusal_belowFetch hr)
  case h_2 => exact (initCommand_noException _ _).thenRetire _ _

theorem bufferCommand_noException (kind : CmdKind) (d o : Operand) (s : State) :
    RaisesNoException (bufferCommand kind d o s) := by
  unfold bufferCommand
  split
  case h_1 hr => exact .refused (commandRefusal_belowFetch hr)
  case h_2 => exact .ite ((start_noException _ _).thenRetire _ _) (.ite (.next _) (.next _))

/-- No instruction raises an exception (60_exceptions.md R220). -/
theorem exec_noException (i : Instr) (s : State) : RaisesNoException (exec i s) := by
  cases i with
  | addpix d o | mulpix d o | blnpix d o | mixpix d o => exact pixelOp_noException _ _ d o s
  | setpiv o => exact (withOperand_noException o s _ : RaisesNoException (execSetpiv o s))
  | setpix o => exact (withOperand_noException o s _ : RaisesNoException (execSetpix o s))
  | setdacs o => exact (withOperand_noException o s _ : RaisesNoException (execSetdacs o s))
  | setxfrq o => exact (withOperand_noException o s _ : RaisesNoException (execSetxfrq o s))
  | setq o => exact (withOperand_noException o s _ : RaisesNoException (execSetq o s))
  | xinit d o => exact initWith_noException d o s
  | xstop => exact execXstop_noException s
  | xzero d o | xcont d o => exact bufferCommand_noException _ d o s
  | getxacc d => exact execGetxacc_noException d s
  | augs n | augd n => exact .next _

/-! ### A step's fault -/

theorem cogTurn_noException (i : Instr) (s : State) : RaisesNoException (cogTurn i s) := by
  have hexec := exec_noException i s
  unfold cogTurn
  generalize exec i s = a at hexec
  cases hexec with
  | next t => exact .next _
  | refused hr => exact .refused hr

theorem decode_truncated_iff (bs : List Byte) : decode bs = .truncated ↔ bs.length < 4 := by
  match bs with
  | [] | [_] | [_, _] | [_, _, _] => simp [decode]
  | b0 :: b1 :: b2 :: b3 :: rest =>
    cases h : decodeWord (leWord [b0, b1, b2, b3]) <;> simp [decode, h]

/-- The fetch finds a torn word exactly where one to three of its bytes are listed (log 5). -/
theorem decodeFetched_torn_iff (bs : List Byte) : decodeFetched bs = .torn ↔ 0 < bs.length ∧ bs.length < 4 := by
  cases bs with
  | nil => simp [decodeFetched]
  | cons b bs =>
    by_cases hlen : (b :: bs).length < 4
    · exact iff_of_true (if_pos hlen) ⟨Nat.succ_pos _, hlen⟩
    · have hwhole : decode (b :: bs) ≠ .truncated := fun h => hlen ((decode_truncated_iff _).1 h)
      refine iff_of_false (fun h => ?_) fun ⟨_, hshort⟩ => hlen hshort
      simp only [decodeFetched, if_neg hlen] at h
      split at h
      · split at h
        · cases h
        · contradiction
        · cases h
      · cases h

/-- Of what a step does, only the fetch of a torn word on the cog's turn faults. -/
theorem step_fault {s : State} {f : Fault} (h : step s = .fault f) : s.sched.due = 0 ∧ fetch s = .torn := by
  by_cases hdue : s.sched.due = 0
  · refine ⟨hdue, ?_⟩
    cases hfetch : fetch s with
    | ended => exact absurd ((step_of_ended hdue hfetch).symm.trans h) ((systemClock_noException s).ne_fault f)
    | instr i => exact absurd ((step_of_turn hdue hfetch).symm.trans h) ((cogTurn_noException i s).ne_fault f)
    | torn => rfl
    | reject r => cases (step_of_reject hdue hfetch).symm.trans h
  · exact absurd ((step_of_due hdue).symm.trans h) ((systemClock_noException _).ne_fault f)

/-- Settles O57: every operation below the fetch answers without an exception, and the fetch faults on a torn word only. -/
theorem noInstructionRaisesAnException : Obligations.NoInstructionRaisesAnException := by
  refine ⟨fun i s => (exec_noException i s).ne_fault,
    fun i s r h => r.belowFetch_iff.1 ((exec_noException i s).refusal_belowFetch h), fun s f h => ?_⟩
  obtain ⟨hdue, htorn⟩ := step_fault h
  exact ⟨hdue, (decodeFetched_torn_iff _).1 htorn⟩

end Sys2Proof.Machine

/-! The statements of the family 70_reset_and_hazards.md. What holds at reset is read off its idle streamer (D8): the streamer
does nothing, and the invariant asks nothing of a running command. -/

namespace Sys2Proof.Machine

/-! ### The frequency at cog start -/

/-- Settles O1: adding `2^31` to a phase masked to 31 bits always sets bit 31. -/
theorem cogStartFrequencyRollsOverEveryClock : Obligations.CogStartFrequencyRollsOverEveryClock := by
  refine ⟨rfl, fun s hfreq hrun hdds => ?_⟩
  have hroll : rollsOver (ncoStep s.str.xfrq s.str.xphs) = true := by rw [hfreq, rollsOver_ncoStep_full]
  rw [streamerClock_of_rollover hrun hdds hroll, State.phaseMoved, hfreq]

/-! ### The launch premises -/

theorem reset_launchPremises : LaunchPremises State.reset := ⟨⟨rfl, rfl⟩, rfl, rfl, rfl⟩

/-- Settles O2: a stopped streamer drives neither pins nor channels, by the statement of R149. -/
theorem resetMeetsLaunchPremises : Obligations.ResetMeetsLaunchPremises := by
  obtain ⟨⟨hstop, -⟩, -, -, hcs⟩ := reset_launchPremises
  obtain ⟨-, hpins, -, hdac⟩ := stoppedStreamerDoesNothing State.reset hstop
  exact ⟨reset_launchPremises, hpins, hdac hcs⟩

/-! ### The invariant -/

/-- With nothing running and nothing waiting, only the accumulators remain to be sound. -/
theorem StreamerIdle.streamerSound {s : State} (h : StreamerIdle s) (hacc : AccumulatorsSound s) : StreamerSound s := by
  obtain ⟨hstop, hempty⟩ := h
  exact ⟨bufferSound_of_empty hempty, fun hrun => absurd hstop hrun, hacc⟩

/-- The lookup RAM's usual 512 words cover those that the base field can name. -/
theorem usual_paramsSound : ParamsSound Config.usual := show 481 ≤ 512 by decide

theorem accumulatorsSound_of_cleared {s : State} (hx : s.str.xacx = 0) (hy : s.str.xacy = 0) : AccumulatorsSound s :=
  ⟨hx ▸ Nat.two_pow_pos _, hy ▸ Nat.two_pow_pos _⟩

/-- Settles O3: canonical storage, no prefix mark, and an idle streamer with cleared accumulators. -/
theorem resetMeetsTheMachineInvariant : Obligations.ResetMeetsTheMachineInvariant := by
  have hstorage : StorageSound State.reset := ⟨reset_regs_wf, reset_lut_wf, reset_text_wf⟩
  have hsplit : SplitSound State.reset.cog := splitSound_of_unset rfl
  obtain ⟨hidle, -⟩ := reset_launchPremises
  exact (machineInv_iff _).2
    ⟨⟨hstorage, hsplit, usual_paramsSound⟩, hidle.streamerSound (accumulatorsSound_of_cleared rfl rfl)⟩

end Sys2Proof.Machine
